-- ==== Sys2Proof/Word.lean ====
section
/-! DEFINITION. The word types of the CORE and the names of its registers and flags
(00_scope.md R7, R9; 10_state.md R15, R18, R24). -/

namespace Sys2Proof

/-- A 16-bit word: every register, memory word and instruction (00_scope.md R7 `WORD_WIDTH`). -/
abbrev Word := BitVec 16

/-- A byte of the console (60_exceptions.md R120). -/
abbrev Byte := BitVec 8

/-- The eight general-purpose registers (10_state.md R18). -/
inductive Reg where
  | r0 | r1 | r2 | r3 | r4 | r5 | r6 | r7
  deriving DecidableEq, Repr

/-- One word for each general-purpose register (10_state.md R16: one copy of each, none banked or
hardwired). -/
structure Regs where
  r0 : Word
  r1 : Word
  r2 : Word
  r3 : Word
  r4 : Word
  r5 : Word
  r6 : Word
  r7 : Word
  deriving DecidableEq, Repr

/-- The three mutually exclusive values of COND (10_state.md R24; R27 allows the enumeration). -/
inductive Flag where
  | pos | zro | neg
  deriving DecidableEq, Repr

/-- The ten register identifiers of the register file (10_state.md R15). -/
inductive RegId where
  | gpr (r : Reg)
  | pc
  | cond
  deriving DecidableEq, Repr

end Sys2Proof
end

