-- ==== Sys2Proof/Config.lean ====
section
/-! DEFINITION. The parameters of the machine (00_scope.md R7; 92_eei_decisions.md): what is fixed
for one machine instance and differs between instances. -/

namespace Sys2Proof

/-- The parameters of 00_scope.md R7 that are not fixed by the source. State carries one `Config` and
no step writes it, so a statement about every state is a statement about every value of them
("Claims must hold for every value, or name the value they assume"). -/
structure Config where
  /-- `KBSR_ADDR` (20_memory.md R43). -/
  kbsrAddr : Word
  /-- `KBDR_ADDR` (20_memory.md R44). -/
  kbdrAddr : Word
  /-- `GPR_RESET`: the values of R0..R7 at construction (10_state.md R36). -/
  gprReset : Regs
  /-- `COND_RESET` (10_state.md R28). -/
  condReset : Flag
  /-- `TRAP_LINKS_R7`, OPEN: whether TRAP with a valid vector writes R7 <- PC (44_trap.md R93). -/
  trapLinksR7 : Bool
  /-- `STRICT_RESERVED_BITS` (30_encoding.md R62). -/
  strictReservedBits : Bool
  /-- `IN_PROMPT`, OPEN: the bytes IN writes before it reads (44_trap.md R98). -/
  inPrompt : List Byte
  /-- `HALT_NOTICE`, OPEN: the bytes HALT writes before it ends the run (44_trap.md R100). -/
  haltNotice : List Byte
  /-- `TRACE`: whether the mnemonic trace is emitted (30_encoding.md R68). -/
  trace : Bool
  deriving DecidableEq, Repr

/-- `RESET_PC` (10_state.md R23, 70_reset_and_hazards.md R124): fixed by the source. -/
def Config.resetPC : Word := 0x3000#16

/-- The spec's suggested `IN_PROMPT`, "Enter a character: " (00_scope.md R7). DESIGN CHOICE, log 4;
unsafe for a claim that rests on it: the parameter is OPEN. -/
def Config.suggestedPrompt : List Byte :=
  [0x45#8, 0x6E#8, 0x74#8, 0x65#8, 0x72#8, 0x20#8, 0x61#8, 0x20#8, 0x63#8, 0x68#8, 0x61#8, 0x72#8,
   0x61#8, 0x63#8, 0x74#8, 0x65#8, 0x72#8, 0x3A#8, 0x20#8]

/-- The spec's suggested `HALT_NOTICE`, "HALT" and a newline (00_scope.md R7). DESIGN CHOICE, log 4;
unsafe for a claim that rests on it: the parameter is OPEN. -/
def Config.suggestedNotice : List Byte := [0x48#8, 0x41#8, 0x4C#8, 0x54#8, 0x0A#8]

/-- Every parameter at the default of 00_scope.md R7; for the three OPEN parameters, which have no
default, the start state of 95_test_vectors.md (`TRAP_LINKS_R7` = false) and the suggested texts
(DESIGN CHOICE, log 4; unsafe for a claim that rests on them). `GPR_RESET` and `COND_RESET` are the
spec's decisions D7 and D8, not the source's (DESIGN CHOICE, log 5; unsafe likewise). -/
def Config.default : Config where
  kbsrAddr := 0xFE00#16
  kbdrAddr := 0xFE01#16
  gprReset := { r0 := 0#16, r1 := 0#16, r2 := 0#16, r3 := 0#16,
                r4 := 0#16, r5 := 0#16, r6 := 0#16, r7 := 0#16 }
  condReset := .zro
  trapLinksR7 := false
  strictReservedBits := false
  inPrompt := Config.suggestedPrompt
  haltNotice := Config.suggestedNotice
  trace := false

end Sys2Proof
end

