-- ==== Sys2Proof/Syntax.lean ====
section
/-! DEFINITION. The instructions of the CORE: one constructor for each row of
spec/opcode_table.json (30_encoding.md R57 to R60, R65). -/

namespace Sys2Proof

/-- The sixteen values of `ir[15:12]` (30_encoding.md R59). -/
inductive Opcode where
  | br | add | ld | st | jsr | and | ldr | str | rti | not | ldi | sti | jmp | res | lea | trap
  deriving DecidableEq, Repr

/-- One constructor per row of the opcode table. Register fields are register names; immediates and
offsets are kept as the raw bits of their field (30_encoding.md R58 extends them when they are
used). The rows RET and generic TRAP are aliases: other names of words of the rows JMP, GETC, OUT, PUTS, IN,
PUTSP, HALT and TRAP (invalid vector). -/
inductive Instr where
  /-- ADD, register mode (R72). -/
  | addReg (dr sr1 sr2 : Reg)
  /-- ADD, immediate mode (R73). -/
  | addImm (dr sr1 : Reg) (imm5 : BitVec 5)
  /-- AND, register mode (R74). -/
  | andReg (dr sr1 sr2 : Reg)
  /-- AND, immediate mode (R75). -/
  | andImm (dr sr1 : Reg) (imm5 : BitVec 5)
  /-- NOT (R76). -/
  | not (dr sr : Reg)
  /-- BR with its three condition bits (R78). -/
  | br (n z p : Bool) (off9 : BitVec 9)
  /-- JMP (R79). -/
  | jmp (base : Reg)
  /-- RET: JMP with BaseR = R7 (R80). -/
  | ret
  /-- JSR (R81). -/
  | jsr (off11 : BitVec 11)
  /-- JSRR (R82). -/
  | jsrr (base : Reg)
  /-- LD (R84). -/
  | ld (dr : Reg) (off9 : BitVec 9)
  /-- LDI (R85). -/
  | ldi (dr : Reg) (off9 : BitVec 9)
  /-- LDR (R86). -/
  | ldr (dr base : Reg) (off6 : BitVec 6)
  /-- LEA (R87). -/
  | lea (dr : Reg) (off9 : BitVec 9)
  /-- ST (R88). -/
  | st (sr : Reg) (off9 : BitVec 9)
  /-- STI (R89). -/
  | sti (sr : Reg) (off9 : BitVec 9)
  /-- STR (R90). -/
  | str (sr base : Reg) (off6 : BitVec 6)
  /-- TRAP, the generic row: any vector (R91). -/
  | trap (vect : BitVec 8)
  /-- TRAP x20, GETC (R95). -/
  | getc
  /-- TRAP x21, OUT (R96). -/
  | out
  /-- TRAP x22, PUTS (R97). -/
  | puts
  /-- TRAP x23, IN (R98). -/
  | inChar
  /-- TRAP x24, PUTSP (R99). -/
  | putsp
  /-- TRAP x25, HALT (R100). -/
  | halt
  /-- TRAP with a vector outside 0x20..0x25 (R101). -/
  | trapInvalid (vect : BitVec 8)
  /-- RTI, reserved (R103). -/
  | rti
  /-- RES, reserved (R104). -/
  | res
  deriving DecidableEq, Repr

end Sys2Proof
end

