-- ==== Sys2Proof/Machine/State.lean ====
section
/-! DEFINITION. The state of the CORE as plain data (10_state.md R15 to R36; 44_trap.md R94;
60_exceptions.md R105, R120, R121), the reasons a step can stop, and the state after reset. -/

namespace Sys2Proof.Machine

/-- One memory cell: a word address and the word there. The spec's unit of addressing is the 16-bit
word and no instruction addresses a byte (20_memory.md R37, R47), so a cell holds a word (log 12). -/
abbrev Cell := Nat × Word

/-- Memory in canonical form: addresses strictly rising and below 65,536, no cell holding 0x0000, which
is what an unlisted address reads as (10_state.md R31 "zero-initialized"). -/
abbrev Memory := List Cell

/-- The halt reasons (60_exceptions.md R105). -/
inductive HaltReason where
  /-- Code 0, TRAP x25: "a normal terminal state, not an error" (R100). -/
  | haltTrap
  /-- Code 1, RTI or RES, with the opcode (R103, R104). -/
  | decodeError (op : BitVec 4)
  /-- Code 2, TRAP with a vector outside 0x20..0x25, with the vector (R101). -/
  | badTrapVector (v : BitVec 8)
  /-- Code 3, an invalid register field. Unreachable (R19); kept so that the enumeration matches the
  spec's. -/
  | operandError (field : Nat)
  deriving DecidableEq, Repr

/-- The run status of the sequencer (10_state.md R32). -/
inductive RunStatus where
  | running
  | halted (reason : HaltReason)
  deriving DecidableEq, Repr

/-- The states of the trap handler (44_trap.md R94); idle is `none` in `State.micro`. -/
inductive TrapState where
  /-- GETC: waits for a character. -/
  | gRead
  /-- GETC: writes R0 and the flags. -/
  | gDone (c : Byte)
  /-- OUT: writes the low byte of R0. -/
  | oWrite
  /-- OUT: flushes. -/
  | oFlush
  /-- PUTS: scans the word at `a`. -/
  | pScan (a : Word)
  /-- PUTS: flushes. -/
  | pFlush
  /-- IN: writes byte `k` of the prompt. -/
  | iPrompt (k : Nat)
  /-- IN: flushes the prompt. -/
  | iFlush1
  /-- IN: waits for a character. -/
  | iRead
  /-- IN: echoes the character. -/
  | iEcho (c : Byte)
  /-- IN: flushes the echo. -/
  | iFlush2 (c : Byte)
  /-- IN: writes R0 and the flags. -/
  | iDone (c : Byte)
  /-- PUTSP: scans the word at `a`, writes its low byte. -/
  | qScan (a : Word)
  /-- PUTSP: writes the high byte of the word `w` read at `a`, if it is not zero. -/
  | qHigh (a w : Word)
  /-- PUTSP: flushes. -/
  | qFlush
  /-- HALT: writes byte `k` of the notice. -/
  | hNotice (k : Nat)
  /-- HALT: flushes, then ends the run. -/
  | hFlush
  deriving DecidableEq, Repr

/-- What the host answers next on the console's input side (60_exceptions.md R120): the host's own
state, an input to the model (log 2). -/
inductive HostInput where
  /-- The next `peekReady` is answered false: no character is there yet. -/
  | quiet
  /-- A character is there: `peekReady` is answered true, `readChar` returns it. -/
  | key (c : Byte)
  deriving DecidableEq, Repr

/-- One console operation with its answer (60_exceptions.md R120, R121). -/
inductive ConsoleOp where
  | peekReady (answer : Bool)
  | readChar (c : Byte)
  | writeChar (b : Byte)
  | flush
  deriving DecidableEq, Repr

/-- Everything the spec gives the machine. -/
structure State where
  /-- The parameters (00_scope.md R7); no step writes them. -/
  cfg : Config
  /-- R0..R7 (10_state.md R18). -/
  regs : Regs
  /-- The program counter (10_state.md R21). -/
  pc : Word
  /-- The condition register (10_state.md R24). -/
  cond : Flag
  /-- The instruction register: the word fetched by the current step (10_state.md R33). -/
  ir : Word
  /-- The 65,536 words of memory (10_state.md R31). -/
  mem : Memory
  /-- The run status (10_state.md R32). -/
  status : RunStatus
  /-- The trap handler's micro-state, `none` when idle (10_state.md R34). -/
  micro : Option TrapState
  /-- The model's own field, for the host's side of the console port: what the host will answer, oldest
  first. Empty: nothing more has been supplied (log 2). -/
  input : List HostInput
  /-- The model's own field, for the console port: the operations issued so far, oldest first
  (20_memory.md R52). -/
  log : List ConsoleOp
  /-- The model's own field, for the trace port: the opcodes emitted so far, oldest first
  (30_encoding.md R68; log 8). -/
  trace : List Opcode
  /-- The model's own field, for the diagnostic of the status port: one entry for each error halt, its
  reason, oldest first (60_exceptions.md R105, R121; its text is not in the source, log 8; log 16). -/
  diag : List HaltReason
  deriving DecidableEq, Repr

/-- Why a step can stop. Raised by `step` alone, never by the meaning of an instruction: the machine
has no recoverable exception and every error is a halt, which is a state (60_exceptions.md R106). -/
inductive Fault where
  /-- Raised by `step` when the status is already Halted: no step is enabled (30_encoding.md R66, R119).
  It is the end of the run, whether normal or in error, not an error of its own. Safe: the model
  stops where the hardware stops (log 3). -/
  | halted (reason : HaltReason)
  deriving DecidableEq, Repr

/-- Why a step can be refused. -/
inductive Refusal where
  /-- Raised by `exec` for an instruction that has no meaning yet. Safe. No arm raises it: every
  instruction has its meaning. -/
  | notModelled (mnemonic : String)
  /-- Raised by `step` when `STRICT_RESERVED_BITS` is on and the fetched word has a "u" bit that differs
  from its standard value (30_encoding.md R62). Safe: "toward unprovable", off by default. -/
  | reservedBits (word : Word)
  deriving DecidableEq, Repr

/-- The state after construction (70_reset_and_hazards.md R123 phase 1) and start with no image, for any
parameters: 10_state.md R36. `ir` is "unspecified; never read before the first fetch writes it": zero
here (DESIGN CHOICE, log 6; safe: nothing reads it). The status is already Running: the spec has no
status for a machine that is constructed and not started, and the start of R123 phase 3 is no event of
its own here (DESIGN CHOICE, log 15; unsafe for a machine whose load failed). -/
def State.construct (cfg : Config) : State where
  cfg := cfg
  regs := cfg.gprReset
  pc := Config.resetPC
  cond := cfg.condReset
  ir := 0#16
  mem := []
  status := .running
  micro := none
  input := []
  log := []
  trace := []
  diag := []

/-- The machine right after reset, at the default parameters. -/
def State.reset : State := State.construct Config.default

end Sys2Proof.Machine
end

