-- ==== Sys2Proof/Machine/Ops.lean ====
section
/-! DEFINITION. The named operations on memory, registers and the console, and the halt
(00_scope.md R11 to R14; 20_memory.md R39 to R42; 60_exceptions.md R105, R120). -/

namespace Sys2Proof.Machine

/-! ## Memory as a canonical list -/

/-- The word at an address: the first cell listed for it, 0x0000 where none is (10_state.md R31). -/
def Memory.read : Memory → Nat → Word
  | [], _ => 0#16
  | (b, w) :: m, a => if a = b then w else Memory.read m a

/-- Memory without any cell for an address. -/
def Memory.erase : Memory → Nat → Memory
  | [], _ => []
  | (b, w) :: m, a => if a = b then Memory.erase m a else (b, w) :: Memory.erase m a

/-- A cell put before the first cell of a higher address. -/
def Memory.insert : Memory → Nat → Word → Memory
  | [], a, v => [(a, v)]
  | (b, w) :: m, a, v => if a < b then (a, v) :: (b, w) :: m else (b, w) :: Memory.insert m a v

/-- Memory with one word replaced, in canonical form: a zero word is not listed. -/
def Memory.write (m : Memory) (a : Nat) (v : Word) : Memory :=
  if v = 0#16 then Memory.erase m a else Memory.insert (Memory.erase m a) a v

/-- Every listed address is above `lo`, they rise strictly, all are below 65,536, no cell holds 0. -/
def Memory.wfAbove : Memory → Option Nat → Bool
  | [], _ => true
  | (b, w) :: m, lo =>
    (match lo with
      | none => true
      | some l => decide (l < b)) && decide (b < 65536) && (w != 0#16) && Memory.wfAbove m (some b)

/-- The canonical form of memory. -/
def Memory.wf (m : Memory) : Bool := Memory.wfAbove m none

/-! ## Registers (00_scope.md R11; 10_state.md R15 to R19) -/

/-- One general register of a file. -/
def Regs.get (rs : Regs) : Reg → Word
  | .r0 => rs.r0
  | .r1 => rs.r1
  | .r2 => rs.r2
  | .r3 => rs.r3
  | .r4 => rs.r4
  | .r5 => rs.r5
  | .r6 => rs.r6
  | .r7 => rs.r7

/-- A file with one general register replaced. -/
def Regs.set (rs : Regs) : Reg → Word → Regs
  | .r0, v => { rs with r0 := v }
  | .r1, v => { rs with r1 := v }
  | .r2, v => { rs with r2 := v }
  | .r3, v => { rs with r3 := v }
  | .r4, v => { rs with r4 := v }
  | .r5, v => { rs with r5 := v }
  | .r6, v => { rs with r6 := v }
  | .r7, v => { rs with r7 := v }

/-- `R[i]` (R11). -/
def State.reg (s : State) (r : Reg) : Word := Regs.get s.regs r

/-- `R[i] <- v` (R11). -/
def State.setReg (s : State) (r : Reg) (v : Word) : State := { s with regs := Regs.set s.regs r v }

/-- `PC <- v` (R11). -/
def State.setPC (s : State) (v : Word) : State := { s with pc := v }

/-! ## The console (00_scope.md R13; 60_exceptions.md R120) -/

/-- A console operation issued: the log keeps program order (20_memory.md R52). -/
def State.issue (s : State) (op : ConsoleOp) : State := { s with log := s.log ++ [op] }

/-- `Console.writeChar(b)`: raw bytes, nothing filtered or translated (44_trap.md R96). -/
def State.writeChar (s : State) (b : Byte) : State := s.issue (.writeChar b)

/-- `Console.flush()`. -/
def State.flush (s : State) : State := s.issue .flush

/-- The next character the host supplies to a blocking `readChar`, with the answers left after it:
"not ready" marks before it are waited out. `none`: the host has supplied none yet (44_trap.md R102). -/
def nextKey : List HostInput → Option (Byte × List HostInput)
  | [] => none
  | .quiet :: rest => nextKey rest
  | .key c :: rest => some (c, rest)

/-- The host supplies one more character (60_exceptions.md R120: its duty to GETC and IN). The host's
move, not a step of the CORE. -/
def State.supply (s : State) (c : Byte) : State := { s with input := s.input ++ [.key c] }

/-! ## Memory access and the MMIO controller (20_memory.md R39 to R42) -/

/-- `MemPeek(addr)`: the stored word, no side effect (R41). -/
def State.memPeek (s : State) (a : Word) : Word := Memory.read s.mem a.toNat

/-- `MemWrite(addr, 1, v)`: a plain store at every address (R40). -/
def State.memWrite (s : State) (a v : Word) : State :=
  { s with mem := Memory.write s.mem a.toNat v }

/-- The poll of the MMIO controller on a read of KBSR (R39, R42): only bit 15 of KBSR changes (decision
D12); a ready character is consumed into the low byte of KBDR, zero-extended (decision D13). -/
def State.poll (s : State) : State :=
  match s.input with
  | .key c :: rest =>
    ((({ s with input := rest }.issue (.peekReady true)).memWrite s.cfg.kbsrAddr
      (s.memPeek s.cfg.kbsrAddr ||| 0x8000#16)).issue (.readChar c)).memWrite s.cfg.kbdrAddr
      (c.setWidth 16)
  | .quiet :: rest =>
    ({ s with input := rest }.issue (.peekReady false)).memWrite s.cfg.kbsrAddr
      (s.memPeek s.cfg.kbsrAddr &&& 0x7FFF#16)
  | [] =>
    (s.issue (.peekReady false)).memWrite s.cfg.kbsrAddr (s.memPeek s.cfg.kbsrAddr &&& 0x7FFF#16)

/-- The state after the side effect of `MemRead(addr, 1)`: a poll exactly at KBSR (R39, R42). -/
def State.afterRead (s : State) (a : Word) : State :=
  if a = s.cfg.kbsrAddr then s.poll else s

/-- `MemRead(addr, 1)`: the word read, after the side effect (R39). -/
def State.memRead (s : State) (a : Word) : Word := (s.afterRead a).memPeek a

/-! ## The halt (00_scope.md R14; 60_exceptions.md R105, R107) -/

/-- The diagnostic channel after a halt: "all failures surface as a loop termination plus a diagnostic";
HALT is no failure and adds none (R100, R105, decision D26; log 16). -/
def HaltReason.diagnose : HaltReason → List HaltReason → List HaltReason
  | .haltTrap, d => d
  | .decodeError op, d => d ++ [.decodeError op]
  | .badTrapVector v, d => d ++ [.badTrapVector v]
  | .operandError f, d => d ++ [.operandError f]

/-- `Halt(reason)`: the run status becomes Halted(reason), an error puts its diagnostic on the status
port, and nothing else changes. PC stays at the halting word's address + 1, where the fetch left it
(R107). The machine has no recoverable exception, so this is the one entry it has, and no instruction
returns from it (R106, R111). -/
def State.raiseHalt (s : State) (r : HaltReason) : State :=
  { s with status := .halted r, diag := r.diagnose s.diag }

/-- The numeric code of a halt reason (R105). -/
def HaltReason.code : HaltReason → Nat
  | .haltTrap => 0
  | .decodeError _ => 1
  | .badTrapVector _ => 2
  | .operandError _ => 3

end Sys2Proof.Machine
end

