-- ==== Sys2Proof/Machine/Flags.lean ====
section
/-! DEFINITION. The condition flag: its computation, its numeric encoding and BR's test of it
(10_state.md R24 to R27; 42_control.md R78). -/

namespace Sys2Proof.Machine

/-- The flag of a 16-bit value (R25). -/
def flagOf (v : Word) : Flag :=
  if v = 0#16 then .zro else if v.getLsbD 15 then .neg else .pos

/-- `COND <- f` (00_scope.md R11). -/
def State.setCond (s : State) (f : Flag) : State := { s with cond := f }

/-- `UpdateFlags(v)` (R25). -/
def State.updateFlags (s : State) (v : Word) : State := s.setCond (flagOf v)

/-- The numeric value of COND: one-hot, N bit 2, Z bit 1, P bit 0 (R27, decision D6). -/
def flagCode : Flag → Word
  | .neg => 0x0004#16
  | .zro => 0x0002#16
  | .pos => 0x0001#16

/-- The flag a word stands for; `none` for a word that COND never holds (R27: bits 15:3 are 0 and exactly
one of bits 2:0 is 1). -/
def flagOfCode (w : Word) : Option Flag :=
  if w = 0x0004#16 then some .neg
  else if w = 0x0002#16 then some .zro
  else if w = 0x0001#16 then some .pos
  else none

/-- BR's condition: a requested flag is the flag now in COND (R78). -/
def branchTaken (n z p : Bool) (cond : Flag) : Bool :=
  (n && decide (cond = .neg)) || (z && decide (cond = .zro)) || (p && decide (cond = .pos))

/-- `R[DR] <- v; UpdateFlags(R[DR])`: the shared end of every instruction with a DR (R25, R26). -/
def State.writeDest (s : State) (dr : Reg) (v : Word) : State :=
  (s.setReg dr v).updateFlags ((s.setReg dr v).reg dr)

/-- A register of the file by its identifier: the indexed get of R15, for the host's view of the final
state (60_exceptions.md R121 `state_view`). -/
def State.regById (s : State) : RegId → Word
  | .gpr r => s.reg r
  | .pc => s.pc
  | .cond => flagCode s.cond

/-- The indexed set of R15. `none` only for COND and a word that is none of its values (R24, R29): the
spec has no write of such a word, `COND <- f` takes a flag (DEDUCED, log 17; safe). -/
def State.setRegById (s : State) : RegId → Word → Option State
  | .gpr r, v => some (s.setReg r v)
  | .pc, v => some (s.setPC v)
  | .cond, v => (flagOfCode v).map s.setCond

end Sys2Proof.Machine
end

