-- ==== Sys2Proof/Machine/Operands.lean ====
section
/-! DEFINITION. Operand and address assembly (00_scope.md R10; 30_encoding.md R58; 43_load_store.md
R83). -/

namespace Sys2Proof.Machine

/-- `sext_N(v)` of an N-bit field: the 16-bit value with the sign bit in every higher bit (R10). -/
def sext {n : Nat} (v : BitVec n) : Word := v.signExtend 16

/-- `zext_16(b)` (R10). -/
def zext (b : Byte) : Word := b.setWidth 16

/-- The source's procedure `SignExtend(value, bitWidth)`: if bit `bitWidth - 1` is set, OR in all higher
bits, else leave the value unchanged (R10; 90_conflicts.md C9). -/
def signExtendSource (v : Word) (n : Nat) : Word :=
  if v.getLsbD (n - 1) then v ||| (0xFFFF#16 <<< n) else v

/-- Bits 7:0 of a word: a character (20_memory.md R47). -/
def lowByte (w : Word) : Byte := w.extractLsb' 0 8

/-- Bits 15:8 of a word: the second packed character of PUTSP (44_trap.md R99). -/
def highByte (w : Word) : Byte := w.extractLsb' 8 8

/-- PC-relative address: `PC + sext_N(offset)`, wrapping; PC is the value after the fetch increment
(R83, 10_state.md R21). -/
def State.pcRel {n : Nat} (s : State) (off : BitVec n) : Word := s.pc + sext off

/-- Base + offset address: `R[BaseR] + sext_6(offset6)`, wrapping (R83). -/
def State.baseRel (s : State) (base : Reg) (off6 : BitVec 6) : Word := s.reg base + sext off6

/-- The pointer word of the PC-relative indirect mode, read with MemRead (R83; decision D14). -/
def State.indirect (s : State) (off9 : BitVec 9) : Word := s.memRead (s.pcRel off9)

/-- The state after the pointer read of the indirect mode. -/
def State.afterIndirect (s : State) (off9 : BitVec 9) : State := s.afterRead (s.pcRel off9)

end Sys2Proof.Machine
end

