-- ==== Sys2Proof/Machine/Control.lean ====
section
/-! DEFINITION. The control transfers BR, JMP, RET, JSR, JSRR (42_control.md R77 to R82). In each,
`s.pc` is the value after the fetch increment. -/

namespace Sys2Proof.Machine

/-- BR (R78). -/
def execBr (n z p : Bool) (off9 : BitVec 9) (s : State) : Host.Outcome State Fault Refusal :=
  .next (if branchTaken n z p s.cond then s.setPC (s.pcRel off9) else s)

/-- JMP (R79). -/
def execJmp (base : Reg) (s : State) : Host.Outcome State Fault Refusal :=
  .next (s.setPC (s.reg base))

/-- RET: JMP with BaseR = R7 (R80). -/
def execRet (s : State) : Host.Outcome State Fault Refusal :=
  .next (s.setPC (s.reg .r7))

/-- JSR: the return address first, then the jump (R81). -/
def execJsr (off11 : BitVec 11) (s : State) : Host.Outcome State Fault Refusal :=
  .next ((s.setReg .r7 s.pc).setPC (s.pcRel off11))

/-- JSRR: the return address first, then the jump to BaseR, read after the R7 write (R82, decision
D11). -/
def execJsrr (base : Reg) (s : State) : Host.Outcome State Fault Refusal :=
  .next ((s.setReg .r7 s.pc).setPC ((s.setReg .r7 s.pc).reg base))

end Sys2Proof.Machine
end

