-- ==== Sys2Proof/Machine/LoadStore.lean ====
section
/-! DEFINITION. Loads and stores LD, LDI, LDR, LEA, ST, STI, STR (43_load_store.md R83 to R90). -/

namespace Sys2Proof.Machine

/-- `R[DR] <- MemRead(ea, 1); UpdateFlags(R[DR])`: the shared end of the loads. -/
def State.load (s : State) (dr : Reg) (ea : Word) : State :=
  (s.afterRead ea).writeDest dr (s.memRead ea)

/-- LD (R84). -/
def execLd (dr : Reg) (off9 : BitVec 9) (s : State) : Host.Outcome State Fault Refusal :=
  .next (s.load dr (s.pcRel off9))

/-- LDI: the pointer read, then the data read (R85). -/
def execLdi (dr : Reg) (off9 : BitVec 9) (s : State) : Host.Outcome State Fault Refusal :=
  .next ((s.afterIndirect off9).load dr (s.indirect off9))

/-- LDR: the address is formed from the old base (R86). -/
def execLdr (dr base : Reg) (off6 : BitVec 6) (s : State) : Host.Outcome State Fault Refusal :=
  .next (s.load dr (s.baseRel base off6))

/-- LEA: the address itself, no memory access (R87). -/
def execLea (dr : Reg) (off9 : BitVec 9) (s : State) : Host.Outcome State Fault Refusal :=
  .next (s.writeDest dr (s.pcRel off9))

/-- ST (R88). -/
def execSt (sr : Reg) (off9 : BitVec 9) (s : State) : Host.Outcome State Fault Refusal :=
  .next (s.memWrite (s.pcRel off9) (s.reg sr))

/-- STI: the pointer read, then the write (R89). -/
def execSti (sr : Reg) (off9 : BitVec 9) (s : State) : Host.Outcome State Fault Refusal :=
  .next ((s.afterIndirect off9).memWrite (s.indirect off9) (s.reg sr))

/-- STR (R90). -/
def execStr (sr base : Reg) (off6 : BitVec 6) (s : State) : Host.Outcome State Fault Refusal :=
  .next (s.memWrite (s.baseRel base off6) (s.reg sr))

end Sys2Proof.Machine
end

