-- ==== Sys2Proof/Machine/Operate.lean ====
section
/-! DEFINITION. The operate instructions ADD, AND, NOT (41_operate.md R70 to R76). -/

namespace Sys2Proof.Machine

/-- ADD, register mode (R72). -/
def execAddReg (dr sr1 sr2 : Reg) (s : State) : Host.Outcome State Fault Refusal :=
  .next (s.writeDest dr (s.reg sr1 + s.reg sr2))

/-- ADD, immediate mode (R73). -/
def execAddImm (dr sr1 : Reg) (imm5 : BitVec 5) (s : State) : Host.Outcome State Fault Refusal :=
  .next (s.writeDest dr (s.reg sr1 + sext imm5))

/-- AND, register mode (R74). -/
def execAndReg (dr sr1 sr2 : Reg) (s : State) : Host.Outcome State Fault Refusal :=
  .next (s.writeDest dr (s.reg sr1 &&& s.reg sr2))

/-- AND, immediate mode (R75). -/
def execAndImm (dr sr1 : Reg) (imm5 : BitVec 5) (s : State) : Host.Outcome State Fault Refusal :=
  .next (s.writeDest dr (s.reg sr1 &&& sext imm5))

/-- NOT (R76). -/
def execNot (dr sr : Reg) (s : State) : Host.Outcome State Fault Refusal :=
  .next (s.writeDest dr (~~~ s.reg sr))

end Sys2Proof.Machine
end

