-- ==== Sys2Proof/Machine/Reserved.lean ====
section
/-! DEFINITION. The reserved opcodes RTI and RES (45_reserved.md R103, R104): "undefined in this
machine; transition to Halted". -/

namespace Sys2Proof.Machine

/-- RTI: halts with DecodeError(0x8); nothing else happens (R103). -/
def execRti (s : State) : Host.Outcome State Fault Refusal :=
  .next (s.raiseHalt (.decodeError 0x8#4))

/-- RES: halts with DecodeError(0xD); nothing else happens (R104). -/
def execRes (s : State) : Host.Outcome State Fault Refusal :=
  .next (s.raiseHalt (.decodeError 0xD#4))

end Sys2Proof.Machine
end

