-- ==== Sys2Proof/WellFormed.lean ====
section
/-! DEFINITION. Which terms of `Instr` are the one spelling of their word (INDEX.md, legend of the
opcode table; 30_encoding.md R60, R65). -/

namespace Sys2Proof

/-- The six valid trap vectors, 0x20 to 0x25 (30_encoding.md R60, 44_trap.md R91). -/
def validVector (v : BitVec 8) : Bool := 0x20#8 ≤ v && v ≤ 0x25#8

/-- A well-formed instruction is one the decoder answers. Three checks:
a TRAP of the invalid-vector row has a vector outside the six (R101: the row's exclude patterns);
JMP with BaseR = R7 is spelled RET (R80);
the generic TRAP row is spelled by the row of its vector (the legend calls it "an alias of its seven
specialised rows"). All other fields are of the width their encoding gives them, so any value fits. -/
def Instr.wellFormed : Instr → Bool
  | .addReg _ _ _ => true
  | .addImm _ _ _ => true
  | .andReg _ _ _ => true
  | .andImm _ _ _ => true
  | .not _ _ => true
  | .br _ _ _ _ => true
  | .jmp base => base != .r7
  | .ret => true
  | .jsr _ => true
  | .jsrr _ => true
  | .ld _ _ => true
  | .ldi _ _ => true
  | .ldr _ _ _ => true
  | .lea _ _ => true
  | .st _ _ => true
  | .sti _ _ => true
  | .str _ _ _ => true
  | .trap _ => false
  | .getc => true
  | .out => true
  | .puts => true
  | .inChar => true
  | .putsp => true
  | .halt => true
  | .trapInvalid v => !validVector v
  | .rti => true
  | .res => true

end Sys2Proof
end

