-- ==== Sys2Proof/Machine/Trap.lean ====
section
/-! DEFINITION. TRAP and the trap handler state machine with its six routines (44_trap.md R91 to
R102). -/

namespace Sys2Proof.Machine

/-- The trap handler's next state, `none` for idle. -/
def State.goto (s : State) (t : Option TrapState) : State := { s with micro := t }

/-- `R[7] <- PC` when `TRAP_LINKS_R7` (R91, R93); otherwise R7 is written with its own value. -/
def State.trapLink (s : State) : State :=
  s.setReg .r7 (if s.cfg.trapLinksR7 then s.pc else s.reg .r7)

/-- `c <- readChar()`: waits out the host's "not ready" marks, takes the next character and goes on;
holds with no change while the host has supplied none (R94, R102). -/
def State.readChar (s : State) (go : Byte → TrapState) : State :=
  match nextKey s.input with
  | none => s
  | some (c, rest) => ({ s with input := rest }.issue (.readChar c)).goto (some (go c))

/-- `R[0] <- zext_16(c); UpdateFlags(R[0])`, and the routine is done (R95, R98). -/
def State.charToR0 (s : State) (c : Byte) : State := (s.writeDest .r0 (zext c)).goto none

/-- Byte `k` of an output string, then the next position; after the last byte, the state `done` (R94). -/
def State.writeText (s : State) (text : List Byte) (k : Nat) (next : Nat → TrapState)
    (done : TrapState) : State :=
  match text[k]? with
  | some b => (s.writeChar b).goto (some (next (k + 1)))
  | none => s.goto (some done)

/-- One state of the trap handler: at most one console operation (R94). -/
def microStep (t : TrapState) (s : State) : State :=
  match t with
  | .gRead => s.readChar .gDone
  | .gDone c => s.charToR0 c
  | .oWrite => (s.writeChar (lowByte (s.reg .r0))).goto (some .oFlush)
  | .oFlush => s.flush.goto none
  | .pScan a =>
    if s.memPeek a = 0#16 then s.goto (some .pFlush)
    else (s.writeChar (lowByte (s.memPeek a))).goto (some (.pScan (a + 1#16)))
  | .pFlush => s.flush.goto none
  | .iPrompt k => s.writeText s.cfg.inPrompt k .iPrompt .iFlush1
  | .iFlush1 => s.flush.goto (some .iRead)
  | .iRead => s.readChar .iEcho
  | .iEcho c => (s.writeChar c).goto (some (.iFlush2 c))
  | .iFlush2 c => s.flush.goto (some (.iDone c))
  | .iDone c => s.charToR0 c
  | .qScan a =>
    if s.memPeek a = 0#16 then s.goto (some .qFlush)
    else (s.writeChar (lowByte (s.memPeek a))).goto (some (.qHigh a (s.memPeek a)))
  | .qHigh a w =>
    (if highByte w = 0#8 then s else s.writeChar (highByte w)).goto (some (.qScan (a + 1#16)))
  | .qFlush => s.flush.goto none
  | .hNotice k => s.writeText s.cfg.haltNotice k .hNotice .hFlush
  | .hFlush => (s.flush.goto none).raiseHalt .haltTrap

/-- Whether a trap handler state waits for the host: a console read with no character supplied (R94
"hold", R102). -/
def holds (t : TrapState) (input : List HostInput) : Bool :=
  match t with
  | .gRead => (nextKey input).isNone
  | .iRead => (nextKey input).isNone
  | .gDone _ => false
  | .oWrite => false
  | .oFlush => false
  | .pScan _ => false
  | .pFlush => false
  | .iPrompt _ => false
  | .iFlush1 => false
  | .iEcho _ => false
  | .iFlush2 _ => false
  | .iDone _ => false
  | .qScan _ => false
  | .qHigh _ _ => false
  | .qFlush => false
  | .hNotice _ => false
  | .hFlush => false

/-- The trap handler run for at most `fuel` of its states: it stops early when it is idle again and when
it holds. -/
def runTrap : Nat → State → State
  | 0, s => s
  | fuel + 1, s =>
    match s.micro with
    | none => s
    | some t => if holds t s.input then s else runTrap fuel (microStep t s)

/-- More states than any routine that ends goes through: a scan meets a zero word within 65,536 words,
at two states a word, or never (R97, R99); the texts take one state a byte. A scan of a memory with
no zero word uses all of it and is taken up again by the next step (log 7). -/
def trapFuel (s : State) : Nat := 131080 + s.cfg.inPrompt.length + s.cfg.haltNotice.length

/-- `TrapRoutine(v)`: the handler runs inside the TRAP step until the routine is done or holds (R91,
R94). -/
def State.runRoutine (s : State) (t : TrapState) : State :=
  runTrap (trapFuel s) (s.goto (some t))

/-- A step of a machine whose trap handler is not idle: the routine goes on where it held, or where an
endless scan was left; while it holds nothing changes (R102). -/
def State.resumeTrap (s : State) : State := runTrap (trapFuel s) s

/-- GETC, vector 0x20 (R95). -/
def execGetc (s : State) : Host.Outcome State Fault Refusal :=
  .next (s.trapLink.runRoutine .gRead)

/-- OUT, vector 0x21 (R96). -/
def execOut (s : State) : Host.Outcome State Fault Refusal :=
  .next (s.trapLink.runRoutine .oWrite)

/-- PUTS, vector 0x22 (R97): the scan starts at the address in R0. -/
def execPuts (s : State) : Host.Outcome State Fault Refusal :=
  .next (s.trapLink.runRoutine (.pScan (s.trapLink.reg .r0)))

/-- IN, vector 0x23 (R98). -/
def execInChar (s : State) : Host.Outcome State Fault Refusal :=
  .next (s.trapLink.runRoutine (.iPrompt 0))

/-- PUTSP, vector 0x24 (R99): the scan starts at the address in R0. -/
def execPutsp (s : State) : Host.Outcome State Fault Refusal :=
  .next (s.trapLink.runRoutine (.qScan (s.trapLink.reg .r0)))

/-- HALT, vector 0x25 (R100). -/
def execHalt (s : State) : Host.Outcome State Fault Refusal :=
  .next (s.trapLink.runRoutine (.hNotice 0))

/-- TRAP with a vector outside the six: halts before any mutation, R7 not even linked (R101). -/
def execTrapInvalid (vect : BitVec 8) (s : State) : Host.Outcome State Fault Refusal :=
  .next (s.raiseHalt (.badTrapVector vect))

/-- The first state of the routine a valid vector selects, `none` for an invalid vector (R60, R91). -/
def trapRoutine (vect : BitVec 8) (s : State) : Option TrapState :=
  if vect = 0x20#8 then some .gRead
  else if vect = 0x21#8 then some .oWrite
  else if vect = 0x22#8 then some (.pScan (s.reg .r0))
  else if vect = 0x23#8 then some (.iPrompt 0)
  else if vect = 0x24#8 then some (.qScan (s.reg .r0))
  else if vect = 0x25#8 then some (.hNotice 0)
  else none

/-- TRAP, the generic row: validate the vector, link, run the routine (R91). -/
def execTrap (vect : BitVec 8) (s : State) : Host.Outcome State Fault Refusal :=
  match trapRoutine vect s.trapLink with
  | some t => .next (s.trapLink.runRoutine t)
  | none => .next (s.raiseHalt (.badTrapVector vect))

end Sys2Proof.Machine
end

