-- ==== Sys2Proof/Machine/Dispatch.lean ====
section
/-! DEFINITION. Dispatch: "a pure mapping from the decoded opcode and fields to one handler"
(30_encoding.md R67). -/

namespace Sys2Proof.Machine

-- The state is the one after the fetch: PC is already the instruction's address + 1 (R21).
def exec (i : Instr) (s : State) : Host.Outcome State Fault Refusal :=
  match i with
  | .addReg dr sr1 sr2 => Sys2Proof.Machine.execAddReg dr sr1 sr2 s
  | .addImm dr sr1 imm5 => Sys2Proof.Machine.execAddImm dr sr1 imm5 s
  | .andReg dr sr1 sr2 => Sys2Proof.Machine.execAndReg dr sr1 sr2 s
  | .andImm dr sr1 imm5 => Sys2Proof.Machine.execAndImm dr sr1 imm5 s
  | .not dr sr => Sys2Proof.Machine.execNot dr sr s
  | .br n z p off9 => Sys2Proof.Machine.execBr n z p off9 s
  | .jmp base => Sys2Proof.Machine.execJmp base s
  | .ret => Sys2Proof.Machine.execRet s
  | .jsr off11 => Sys2Proof.Machine.execJsr off11 s
  | .jsrr base => Sys2Proof.Machine.execJsrr base s
  | .ld dr off9 => Sys2Proof.Machine.execLd dr off9 s
  | .ldi dr off9 => Sys2Proof.Machine.execLdi dr off9 s
  | .ldr dr base off6 => Sys2Proof.Machine.execLdr dr base off6 s
  | .lea dr off9 => Sys2Proof.Machine.execLea dr off9 s
  | .st sr off9 => Sys2Proof.Machine.execSt sr off9 s
  | .sti sr off9 => Sys2Proof.Machine.execSti sr off9 s
  | .str sr base off6 => Sys2Proof.Machine.execStr sr base off6 s
  | .trap vect => Sys2Proof.Machine.execTrap vect s
  | .getc => Sys2Proof.Machine.execGetc s
  | .out => Sys2Proof.Machine.execOut s
  | .puts => Sys2Proof.Machine.execPuts s
  | .inChar => Sys2Proof.Machine.execInChar s
  | .putsp => Sys2Proof.Machine.execPutsp s
  | .halt => Sys2Proof.Machine.execHalt s
  | .trapInvalid vect => Sys2Proof.Machine.execTrapInvalid vect s
  | .rti => Sys2Proof.Machine.execRti s
  | .res => Sys2Proof.Machine.execRes s

end Sys2Proof.Machine
end

