-- ==== Sys2Proof/Decode.lean ====
section
/-! DEFINITION. The decoder, total on every 16-bit word, and the encoder (30_encoding.md R55 to R65).
Bit positions, opcode numbers and trap vectors are the spec's own (decisions D1, D2, D3; log 10). -/

namespace Sys2Proof

/-- `w[lo+n-1 : lo]`: the bit-field helper "parameterized by offset and width, used uniformly by every
handler" (R65; bit numbering R8). -/
def field (w : Word) (lo n : Nat) : BitVec n := w.extractLsb' lo n

/-- A 3-bit register field with value `n` names `Rn` (10_state.md R19); every value is valid. -/
def Reg.ofBits (b : BitVec 3) : Reg :=
  match b.getLsbD 2, b.getLsbD 1, b.getLsbD 0 with
  | false, false, false => .r0
  | false, false, true  => .r1
  | false, true,  false => .r2
  | false, true,  true  => .r3
  | true,  false, false => .r4
  | true,  false, true  => .r5
  | true,  true,  false => .r6
  | true,  true,  true  => .r7

/-- The 3-bit field that names a register (R19). -/
def Reg.bits : Reg → BitVec 3
  | .r0 => 0#3
  | .r1 => 1#3
  | .r2 => 2#3
  | .r3 => 3#3
  | .r4 => 4#3
  | .r5 => 5#3
  | .r6 => 6#3
  | .r7 => 7#3

/-- The sixteen opcode values (R59); a 4-bit field has no other value (R63). -/
def Opcode.ofBits (b : BitVec 4) : Opcode :=
  match b.getLsbD 3, b.getLsbD 2, b.getLsbD 1, b.getLsbD 0 with
  | false, false, false, false => .br
  | false, false, false, true  => .add
  | false, false, true,  false => .ld
  | false, false, true,  true  => .st
  | false, true,  false, false => .jsr
  | false, true,  false, true  => .and
  | false, true,  true,  false => .ldr
  | false, true,  true,  true  => .str
  | true,  false, false, false => .rti
  | true,  false, false, true  => .not
  | true,  false, true,  false => .ldi
  | true,  false, true,  true  => .sti
  | true,  true,  false, false => .jmp
  | true,  true,  false, true  => .res
  | true,  true,  true,  false => .lea
  | true,  true,  true,  true  => .trap

/-- The 4-bit value of each opcode (R59). -/
def Opcode.bits : Opcode → BitVec 4
  | .br  => 0x0#4
  | .add => 0x1#4
  | .ld  => 0x2#4
  | .st  => 0x3#4
  | .jsr => 0x4#4
  | .and => 0x5#4
  | .ldr => 0x6#4
  | .str => 0x7#4
  | .rti => 0x8#4
  | .not => 0x9#4
  | .ldi => 0xA#4
  | .sti => 0xB#4
  | .jmp => 0xC#4
  | .res => 0xD#4
  | .lea => 0xE#4
  | .trap => 0xF#4

/-- The row of a TRAP word by its vector (R60). -/
def decodeTrap (v : BitVec 8) : Instr :=
  if v = 0x20#8 then .getc
  else if v = 0x21#8 then .out
  else if v = 0x22#8 then .puts
  else if v = 0x23#8 then .inChar
  else if v = 0x24#8 then .putsp
  else if v = 0x25#8 then .halt
  else .trapInvalid v

/-- The row of a JMP word by its base register: R7 is the RET idiom (R80). -/
def decodeJmp (base : Reg) : Instr :=
  match base with
  | .r7 => .ret
  | .r0 => .jmp .r0
  | .r1 => .jmp .r1
  | .r2 => .jmp .r2
  | .r3 => .jmp .r3
  | .r4 => .jmp .r4
  | .r5 => .jmp .r5
  | .r6 => .jmp .r6

/-- The decoder: a total function from every 16-bit word to one instruction (R65). Bits that no field
names are ignored (R62). -/
def decode (ir : Word) : Instr :=
  let dr := Reg.ofBits (field ir 9 3)
  let sr1 := Reg.ofBits (field ir 6 3)
  let sr2 := Reg.ofBits (field ir 0 3)
  let off9 := field ir 0 9
  match Opcode.ofBits (field ir 12 4) with
  | .add => bif ir.getLsbD 5 then .addImm dr sr1 (field ir 0 5) else .addReg dr sr1 sr2
  | .and => bif ir.getLsbD 5 then .andImm dr sr1 (field ir 0 5) else .andReg dr sr1 sr2
  | .not => .not dr sr1
  | .br  => .br (ir.getLsbD 11) (ir.getLsbD 10) (ir.getLsbD 9) off9
  | .jmp => decodeJmp sr1
  | .jsr => bif ir.getLsbD 11 then .jsr (field ir 0 11) else .jsrr sr1
  | .ld  => .ld dr off9
  | .ldi => .ldi dr off9
  | .ldr => .ldr dr sr1 (field ir 0 6)
  | .lea => .lea dr off9
  | .st  => .st dr off9
  | .sti => .sti dr off9
  | .str => .str dr sr1 (field ir 0 6)
  | .trap => decodeTrap (field ir 0 8)
  | .rti => .rti
  | .res => .res

/-- The opcode an instruction is encoded under (R59). -/
def Instr.opcode : Instr → Opcode
  | .addReg _ _ _ => .add
  | .addImm _ _ _ => .add
  | .andReg _ _ _ => .and
  | .andImm _ _ _ => .and
  | .not _ _ => .not
  | .br _ _ _ _ => .br
  | .jmp _ => .jmp
  | .ret => .jmp
  | .jsr _ => .jsr
  | .jsrr _ => .jsr
  | .ld _ _ => .ld
  | .ldi _ _ => .ldi
  | .ldr _ _ _ => .ldr
  | .lea _ _ => .lea
  | .st _ _ => .st
  | .sti _ _ => .sti
  | .str _ _ _ => .str
  | .trap _ => .trap
  | .getc => .trap
  | .out => .trap
  | .puts => .trap
  | .inChar => .trap
  | .putsp => .trap
  | .halt => .trap
  | .trapInvalid _ => .trap
  | .rti => .rti
  | .res => .res

/-- `ir[11:0]` of an instruction's word: the field layout of R57, with the standard LC-3 value in every
bit that no field names. RES has no standard value in R57; the encoder writes zeros there. -/
def Instr.operandBits : Instr → BitVec 12
  | .addReg dr sr1 sr2 => dr.bits ++ sr1.bits ++ 0b000#3 ++ sr2.bits
  | .addImm dr sr1 imm5 => dr.bits ++ sr1.bits ++ 1#1 ++ imm5
  | .andReg dr sr1 sr2 => dr.bits ++ sr1.bits ++ 0b000#3 ++ sr2.bits
  | .andImm dr sr1 imm5 => dr.bits ++ sr1.bits ++ 1#1 ++ imm5
  | .not dr sr => dr.bits ++ sr.bits ++ 0b111111#6
  | .br n z p off9 => BitVec.ofBool n ++ BitVec.ofBool z ++ BitVec.ofBool p ++ off9
  | .jmp base => 0b000#3 ++ base.bits ++ 0b000000#6
  | .ret => 0b000#3 ++ 0b111#3 ++ 0b000000#6
  | .jsr off11 => 1#1 ++ off11
  | .jsrr base => 0#1 ++ 0b00#2 ++ base.bits ++ 0b000000#6
  | .ld dr off9 => dr.bits ++ off9
  | .ldi dr off9 => dr.bits ++ off9
  | .ldr dr base off6 => dr.bits ++ base.bits ++ off6
  | .lea dr off9 => dr.bits ++ off9
  | .st sr off9 => sr.bits ++ off9
  | .sti sr off9 => sr.bits ++ off9
  | .str sr base off6 => sr.bits ++ base.bits ++ off6
  | .trap vect => 0b0000#4 ++ vect
  | .getc => 0x020#12
  | .out => 0x021#12
  | .puts => 0x022#12
  | .inChar => 0x023#12
  | .putsp => 0x024#12
  | .halt => 0x025#12
  | .trapInvalid vect => 0b0000#4 ++ vect
  | .rti => 0x000#12
  | .res => 0x000#12

/-- The encoder: the word of an instruction (R57, R59). -/
def encode (i : Instr) : Word := i.opcode.bits ++ i.operandBits

/-- The bits of an instruction's word that no field names: the "u" bits of R57. -/
def Instr.ignoredBits : Instr → Word
  | .addReg _ _ _ => 0x0018#16
  | .addImm _ _ _ => 0x0000#16
  | .andReg _ _ _ => 0x0018#16
  | .andImm _ _ _ => 0x0000#16
  | .not _ _ => 0x003F#16
  | .br _ _ _ _ => 0x0000#16
  | .jmp _ => 0x0E3F#16
  | .ret => 0x0E3F#16
  | .jsr _ => 0x0000#16
  | .jsrr _ => 0x063F#16
  | .ld _ _ => 0x0000#16
  | .ldi _ _ => 0x0000#16
  | .ldr _ _ _ => 0x0000#16
  | .lea _ _ => 0x0000#16
  | .st _ _ => 0x0000#16
  | .sti _ _ => 0x0000#16
  | .str _ _ _ => 0x0000#16
  | .trap _ => 0x0F00#16
  | .getc => 0x0F00#16
  | .out => 0x0F00#16
  | .puts => 0x0F00#16
  | .inChar => 0x0F00#16
  | .putsp => 0x0F00#16
  | .halt => 0x0F00#16
  | .trapInvalid _ => 0x0F00#16
  | .rti => 0x0FFF#16
  | .res => 0x0FFF#16

/-- The ignored bits for which R57 gives a standard value: all of them, but for RES, which has none
(log 9). -/
def Instr.checkedBits (i : Instr) : Word :=
  if i = .res then 0#16 else i.ignoredBits

/-- Whether every "u" bit of a word has its standard value (R62). -/
def standardBits (w : Word) : Bool :=
  (w &&& (decode w).checkedBits) == (encode (decode w) &&& (decode w).checkedBits)

/-- The decoder under `STRICT_RESERVED_BITS`: with the switch on, a word whose "u" bits differ from the
standard values is refused (R62, R65). "That refusal exists only in the model". -/
def decodeUnder (strict : Bool) (w : Word) : Option Instr :=
  if strict && !standardBits w then none else some (decode w)

/-- The mask of an instruction's row in spec/opcode_table.json: its fixed bits. -/
def Instr.tableMask : Instr → Word
  | .addReg _ _ _ => 0xF020#16
  | .addImm _ _ _ => 0xF020#16
  | .andReg _ _ _ => 0xF020#16
  | .andImm _ _ _ => 0xF020#16
  | .not _ _ => 0xF000#16
  | .br _ _ _ _ => 0xF000#16
  | .jmp _ => 0xF000#16
  | .ret => 0xF1C0#16
  | .jsr _ => 0xF800#16
  | .jsrr _ => 0xF800#16
  | .ld _ _ => 0xF000#16
  | .ldi _ _ => 0xF000#16
  | .ldr _ _ _ => 0xF000#16
  | .lea _ _ => 0xF000#16
  | .st _ _ => 0xF000#16
  | .sti _ _ => 0xF000#16
  | .str _ _ _ => 0xF000#16
  | .trap _ => 0xF000#16
  | .getc => 0xF0FF#16
  | .out => 0xF0FF#16
  | .puts => 0xF0FF#16
  | .inChar => 0xF0FF#16
  | .putsp => 0xF0FF#16
  | .halt => 0xF0FF#16
  | .trapInvalid _ => 0xF000#16
  | .rti => 0xF000#16
  | .res => 0xF000#16

/-- The match value of an instruction's row in spec/opcode_table.json. -/
def Instr.tableMatch : Instr → Word
  | .addReg _ _ _ => 0x1000#16
  | .addImm _ _ _ => 0x1020#16
  | .andReg _ _ _ => 0x5000#16
  | .andImm _ _ _ => 0x5020#16
  | .not _ _ => 0x9000#16
  | .br _ _ _ _ => 0x0000#16
  | .jmp _ => 0xC000#16
  | .ret => 0xC1C0#16
  | .jsr _ => 0x4800#16
  | .jsrr _ => 0x4000#16
  | .ld _ _ => 0x2000#16
  | .ldi _ _ => 0xA000#16
  | .ldr _ _ _ => 0x6000#16
  | .lea _ _ => 0xE000#16
  | .st _ _ => 0x3000#16
  | .sti _ _ => 0xB000#16
  | .str _ _ _ => 0x7000#16
  | .trap _ => 0xF000#16
  | .getc => 0xF020#16
  | .out => 0xF021#16
  | .puts => 0xF022#16
  | .inChar => 0xF023#16
  | .putsp => 0xF024#16
  | .halt => 0xF025#16
  | .trapInvalid _ => 0xF000#16
  | .rti => 0x8000#16
  | .res => 0xD000#16

/-- The instruction the decoder reads from an opcode-table row's bits: every instruction is exactly one
16-bit word (R55), so a row of more than 16 bits is no instruction. -/
def decodeTableWord (nbits w : Nat) : Option Instr :=
  if nbits ≤ 16 then some (decode (BitVec.ofNat 16 (w % 2 ^ nbits))) else none

end Sys2Proof
end

