-- ==== Sys2Proof/Machine/Fetch.lean ====
section
/-! DEFINITION. The fetch, the trace, and what a step does when the trap handler is idle
(30_encoding.md R66, R68). -/

namespace Sys2Proof.Machine

/-- `ir <- MemRead(PC, 1); PC <- PC + 1` (R66): KBSR side effect if PC is KBSR, wrapping increment. -/
def State.fetch (s : State) : State :=
  { s.afterRead s.pc with ir := s.memRead s.pc, pc := s.pc + 1#16 }

/-- `if TRACE then TraceEmit(mnemonic(ir[15:12]))` (R66, R68): the opcode goes to the trace port; the
spelling of its mnemonic is not in the source (log 8). -/
def State.traceEmit (s : State) : State :=
  { s with trace := if s.cfg.trace then s.trace ++ [Opcode.ofBits (field s.ir 12 4)] else s.trace }

/-- The state an instruction is executed in: after the fetch and the trace. -/
def State.fetched (s : State) : State := s.fetch.traceEmit

/-- The word, stored where the next step fetches, so that the fetch reads it: plain, but for a fetch
from KBSR, whose poll rewrites bit 15, so the host's answer that gives that bit is put first. The
sequencer is set running with the trap handler idle. -/
def State.placeWord (s : State) (w : Word) : State :=
  { s.memWrite s.pc w with
    status := .running
    micro := none
    input :=
      if s.pc = s.cfg.kbsrAddr then
        (if w.getLsbD 15 then .key 0#8 else .quiet) :: s.input
      else s.input }

end Sys2Proof.Machine
end

