-- ==== Sys2Proof/Machine/Step.lean ====
section
/-! DEFINITION. One step of the sequencer (30_encoding.md R66): one instruction, fetched, decoded and
executed; or, while the trap handler is not idle, the rest of its routine (44_trap.md R94, R102). -/

namespace Sys2Proof.Machine

/-- One step. Halted is terminal: no step is enabled there, and the fault says so (10_state.md R32). -/
def step (s : State) : Host.Outcome State Fault Refusal :=
  match s.status with
  | .halted reason => .fault (.halted reason)
  | .running =>
    match s.micro with
    | some _ => .next s.resumeTrap
    | none =>
      match decodeUnder s.cfg.strictReservedBits s.fetched.ir with
      | some i => exec i s.fetched
      | none => .refused (.reservedBits s.fetched.ir)

/-- The state with one instruction word placed where `step` fetches next, and the sequencer ready to
fetch it. It stands for the load of a program from outside the machine (log 13). -/
def State.withFetchWord (s : State) (nbits w : Nat) : State :=
  s.placeWord (BitVec.ofNat 16 (w % 2 ^ nbits))

end Sys2Proof.Machine
end

