-- ==== Sys2Proof/Machine/Loader.lean ====
section
/-! DEFINITION. The object image and the loader boundary: how a program comes into memory before the
first step (70_reset_and_hazards.md R123 to R128). -/

namespace Sys2Proof.Machine

/-- Why a load fails; it "happens before execution begins, so it is not a run status"
(60_exceptions.md R105). -/
inductive LoadFailure where
  /-- The stream cannot be opened (R128). -/
  | cannotOpen
  /-- Fewer than 2 bytes: no origin (R128). -/
  | noOrigin
  /-- origin + N > 0x10000 (R128, decision D20). -/
  | overrun
  deriving DecidableEq, Repr

/-- The 16-bit words of a byte stream, big-endian (R126); an odd final byte forms no word (R128). -/
def imageWords : List Byte → List Word
  | hi :: lo :: rest => (hi ++ lo) :: imageWords rest
  | [_] => []
  | [] => []

/-- `M[base + i] <- word[i]`, in increasing i, plain writes (R127). -/
def writeWords (m : Memory) (base : Nat) : List Word → Memory
  | [] => m
  | w :: rest => writeWords (Memory.write m base w) (base + 1) rest

/-- The load of an image into a machine; `none` is a stream that could not be opened. Every failure is
found before the first write, so a machine whose load fails is the machine it was (R123, R128). The
status of the machine given is not read or written: that a failed load is never started is the
caller's (DESIGN CHOICE, log 15). -/
def loadImage (stream : Option (List Byte)) (s : State) : Except LoadFailure State :=
  match stream with
  | none => .error .cannotOpen
  | some bytes =>
    match imageWords bytes with
    | [] => .error .noOrigin
    | origin :: words =>
      if 0x10000 < origin.toNat + words.length then .error .overrun
      else .ok { s with mem := writeWords s.mem origin.toNat words }

/-- Construction, load, start (R123), for any parameters: the state the first step starts in. -/
def boot (cfg : Config) (stream : Option (List Byte)) : Except LoadFailure State :=
  loadImage stream (State.construct cfg)

end Sys2Proof.Machine
end

