-- ==== Sys2Proof/Safety.lean ====
section
/-! DEFINITION. The terms claims are stated in: the end of a run (60_exceptions.md R122), the invariant
of the machine between steps, what each instruction may write (10_state.md R20, R21, R26; 20_memory.md
R38), and the view of a state that the trace has no part in (30_encoding.md R68). -/

namespace Sys2Proof.Machine

/-- A run has ended when the status is Halted (R122). -/
def State.ended (s : State) : Prop := s.status ≠ .running

/-- It ended normally when the reason is HaltTrap (R122). -/
def State.endedNormally (s : State) : Prop := s.status = .halted .haltTrap

/-- It ended in error when it ended with any other reason (R122). -/
def State.endedInError (s : State) : Prop := s.ended ∧ ¬ s.endedNormally

/-- The machine waits for the host in a console read (44_trap.md R102): neither ended nor able to go
on. -/
def State.blocked (s : State) : Prop :=
  s.status = .running ∧ (s.micro = some .gRead ∨ s.micro = some .iRead) ∧ nextKey s.input = none

/-- No word of memory is zero: the one case in which PUTS and PUTSP never end (44_trap.md R97, R99). -/
def State.noZeroWord (s : State) : Prop := ∀ a : Word, s.memPeek a ≠ 0#16

/-- The trap handler is in a scan of PUTS or PUTSP (44_trap.md R94). -/
def State.scanning (s : State) : Prop :=
  ∃ a, s.micro = some (.pScan a) ∨ s.micro = some (.qScan a) ∨ ∃ w, s.micro = some (.qHigh a w)

/-- Where the trap handler may stand between two steps: idle, waiting for a character in GETC or IN,
or in an endless scan (44_trap.md R94, R97, R99, R102). -/
def State.handlerAtRest (s : State) : Prop :=
  s.micro = none ∨ s.micro = some .gRead ∨ s.micro = some .iRead ∨ (s.scanning ∧ s.noZeroWord)

/-- The invariant of the machine between steps: memory keeps its canonical form (10_state.md R31), the
trap handler is at rest (10_state.md R34), and it is idle once the run has ended. -/
def State.Inv (s : State) : Prop :=
  Memory.wf s.mem = true ∧ s.handlerAtRest ∧ (s.ended → s.micro = none)

/-- The general registers an instruction may write (R20). -/
def writtenRegs (cfg : Config) : Instr → List Reg
  | .addReg dr _ _ => [dr]
  | .addImm dr _ _ => [dr]
  | .andReg dr _ _ => [dr]
  | .andImm dr _ _ => [dr]
  | .not dr _ => [dr]
  | .br _ _ _ _ => []
  | .jmp _ => []
  | .ret => []
  | .jsr _ => [.r7]
  | .jsrr _ => [.r7]
  | .ld dr _ => [dr]
  | .ldi dr _ => [dr]
  | .ldr dr _ _ => [dr]
  | .lea dr _ => [dr]
  | .st _ _ => []
  | .sti _ _ => []
  | .str _ _ _ => []
  | .trap v =>
    if validVector v then
      (if v = 0x20#8 ∨ v = 0x23#8 then [.r0] else []) ++ (if cfg.trapLinksR7 then [.r7] else [])
    else []
  | .getc => .r0 :: (if cfg.trapLinksR7 then [.r7] else [])
  | .out => if cfg.trapLinksR7 then [.r7] else []
  | .puts => if cfg.trapLinksR7 then [.r7] else []
  | .inChar => .r0 :: (if cfg.trapLinksR7 then [.r7] else [])
  | .putsp => if cfg.trapLinksR7 then [.r7] else []
  | .halt => if cfg.trapLinksR7 then [.r7] else []
  | .trapInvalid _ => []
  | .rti => []
  | .res => []

/-- The instructions that may write PC after the fetch increment (R21). -/
def writesPC : Instr → Bool
  | .br _ _ _ _ => true
  | .jmp _ => true
  | .ret => true
  | .jsr _ => true
  | .jsrr _ => true
  | .addReg _ _ _ => false
  | .addImm _ _ _ => false
  | .andReg _ _ _ => false
  | .andImm _ _ _ => false
  | .not _ _ => false
  | .ld _ _ => false
  | .ldi _ _ => false
  | .ldr _ _ _ => false
  | .lea _ _ => false
  | .st _ _ => false
  | .sti _ _ => false
  | .str _ _ _ => false
  | .trap _ => false
  | .getc => false
  | .out => false
  | .puts => false
  | .inChar => false
  | .putsp => false
  | .halt => false
  | .trapInvalid _ => false
  | .rti => false
  | .res => false

/-- The instructions that may write COND (R26). -/
def writesCond : Instr → Bool
  | .addReg _ _ _ => true
  | .addImm _ _ _ => true
  | .andReg _ _ _ => true
  | .andImm _ _ _ => true
  | .not _ _ => true
  | .ld _ _ => true
  | .ldi _ _ => true
  | .ldr _ _ _ => true
  | .lea _ _ => true
  | .getc => true
  | .inChar => true
  | .trap v => decide (v = 0x20#8) || decide (v = 0x23#8)
  | .br _ _ _ _ => false
  | .jmp _ => false
  | .ret => false
  | .jsr _ => false
  | .jsrr _ => false
  | .st _ _ => false
  | .sti _ _ => false
  | .str _ _ _ => false
  | .out => false
  | .puts => false
  | .putsp => false
  | .halt => false
  | .trapInvalid _ => false
  | .rti => false
  | .res => false

/-- The addresses an instruction reads with MemRead, in the state it is executed in and in its order; a
read of KBSR polls the keyboard. MemPeek, which PUTS and PUTSP scan with, never polls (20_memory.md R38,
R39, R41; 43_load_store.md R83). -/
def readAddresses (s : State) : Instr → List Word
  | .ld _ off9 => [s.pcRel off9]
  | .ldi _ off9 => [s.pcRel off9, s.indirect off9]
  | .ldr _ base off6 => [s.baseRel base off6]
  | .sti _ off9 => [s.pcRel off9]
  | .addReg _ _ _ => []
  | .addImm _ _ _ => []
  | .andReg _ _ _ => []
  | .andImm _ _ _ => []
  | .not _ _ => []
  | .br _ _ _ _ => []
  | .jmp _ => []
  | .ret => []
  | .jsr _ => []
  | .jsrr _ => []
  | .lea _ _ => []
  | .st _ _ => []
  | .str _ _ _ => []
  | .trap _ => []
  | .getc => []
  | .out => []
  | .puts => []
  | .inChar => []
  | .putsp => []
  | .halt => []
  | .trapInvalid _ => []
  | .rti => []
  | .res => []

/-- The address an instruction stores to, in the state it is executed in; `none` where it stores
nothing (43_load_store.md R88 to R90). -/
def storeAddress (s : State) : Instr → Option Word
  | .st _ off9 => some (s.pcRel off9)
  | .sti _ off9 => some (s.indirect off9)
  | .str _ base off6 => some (s.baseRel base off6)
  | .addReg _ _ _ => none
  | .addImm _ _ _ => none
  | .andReg _ _ _ => none
  | .andImm _ _ _ => none
  | .not _ _ => none
  | .br _ _ _ _ => none
  | .jmp _ => none
  | .ret => none
  | .jsr _ => none
  | .jsrr _ => none
  | .ld _ _ => none
  | .ldi _ _ => none
  | .ldr _ _ _ => none
  | .lea _ _ => none
  | .trap _ => none
  | .getc => none
  | .out => none
  | .puts => none
  | .inChar => none
  | .putsp => none
  | .halt => none
  | .trapInvalid _ => none
  | .rti => none
  | .res => none

/-- The halt an instruction ends in, if it is one that halts (60_exceptions.md R105). -/
def haltOf : Instr → Option HaltReason
  | .rti => some (.decodeError 0x8#4)
  | .res => some (.decodeError 0xD#4)
  | .trapInvalid v => some (.badTrapVector v)
  | .halt => some .haltTrap
  | .trap v =>
    if v = 0x25#8 then some .haltTrap
    else if validVector v then none else some (.badTrapVector v)
  | .addReg _ _ _ => none
  | .addImm _ _ _ => none
  | .andReg _ _ _ => none
  | .andImm _ _ _ => none
  | .not _ _ => none
  | .br _ _ _ _ => none
  | .jmp _ => none
  | .ret => none
  | .jsr _ => none
  | .jsrr _ => none
  | .ld _ _ => none
  | .ldi _ _ => none
  | .ldr _ _ _ => none
  | .lea _ _ => none
  | .st _ _ => none
  | .sti _ _ => none
  | .str _ _ _ => none
  | .getc => none
  | .out => none
  | .puts => none
  | .inChar => none
  | .putsp => none

/-- A state without the trace and its switch: what the trace must have no effect on (R68). -/
def State.untraced (s : State) : State :=
  { s with trace := [], cfg := { s.cfg with trace := false } }

/-- The same view of an outcome. -/
def untracedOutcome : Host.Outcome State Fault Refusal → Host.Outcome State Fault Refusal
  | .next s => .next s.untraced
  | .fault f => .fault f
  | .refused r => .refused r

/-- `t` is `s` but that `dr` holds `v` and COND is `v`'s flag: the effect and the frame of an instruction
with a DR (10_state.md R20, R24, R25). -/
def State.destWritten (s t : State) (dr : Reg) (v : Word) : Prop :=
  t.reg dr = v ∧ t.cond = flagOf v ∧ (∀ r, r ≠ dr → t.reg r = s.reg r) ∧
  (∀ a, t.memPeek a = s.memPeek a) ∧ t = { s with regs := t.regs, cond := t.cond }

/-- `t` is `s` but that the word at `ea` is `v`: the effect and the frame of a store (20_memory.md
R40). -/
def State.wordStored (s t : State) (ea v : Word) : Prop :=
  t.memPeek ea = v ∧ (∀ a, a ≠ ea → t.memPeek a = s.memPeek a) ∧ t = { s with mem := t.mem }

/-- The general registers of `t` are those of `s` but for the link of TRAP: R7 holds PC exactly when
`TRAP_LINKS_R7` (44_trap.md R93). -/
def State.linkedOnly (s t : State) : Prop :=
  t.reg .r7 = (if s.cfg.trapLinksR7 then s.pc else s.reg .r7) ∧ ∀ r, r ≠ .r7 → t.reg r = s.reg r

/-- `t` is `s` after a trap routine has read the character `c` into R0: R0 and COND, the link, and
otherwise only the console and the handler, which is idle (44_trap.md R95, R98). -/
def State.charRead (s t : State) (c : Byte) : Prop :=
  t.reg .r0 = c.setWidth 16 ∧ t.cond = (if c = 0#8 then .zro else .pos) ∧
  t.reg .r7 = (if s.cfg.trapLinksR7 then s.pc else s.reg .r7) ∧
  (∀ r, r ≠ .r0 → r ≠ .r7 → t.reg r = s.reg r) ∧ (∀ a, t.memPeek a = s.memPeek a) ∧
  t = { s with regs := t.regs, cond := t.cond, micro := none, input := t.input, log := t.log }

/-- The words `ws`, none of them zero, lie in memory from `a` on, wrapping, with a zero word after them:
the string PUTS and PUTSP scan (44_trap.md R97, R99). -/
def State.stringAt (s : State) (a : Word) (ws : List Word) : Prop :=
  (∀ k (h : k < ws.length), s.memPeek (a + BitVec.ofNat 16 k) = ws[k] ∧ ws[k] ≠ 0#16) ∧
  s.memPeek (a + BitVec.ofNat 16 ws.length) = 0#16

end Sys2Proof.Machine
end

