-- ==== Sys2Proof/Certificates/Slice0/Obligations.lean ====
section
/-! DEFINITION. The statements for the provers: the numbered rules of the spec, as propositions about
the model. `s` is the state an instruction is executed in: PC is already the instruction's address
plus 1 (10_state.md R21). `BitVec.ofInt 16 v.toInt` is the signed value of a field as a 16-bit word. -/

open Sys2Proof Sys2Proof.Machine

/-! ## Reset and load -/

/-- R23: PC is 0x3000 at construction, and whatever the origin of the loaded image. -/
def Obligations.PcStartsAt3000WhateverTheOrigin : Prop :=
  (∀ cfg, (State.construct cfg).pc = 0x3000#16) ∧
  (∀ cfg stream s, boot cfg stream = .ok s → s.pc = 0x3000#16)

/-- R36 and the parameters of R7, for every value of the parameters; the log and the input, which are
the model's own fields (log 2), are not spoken of. `ir` is unspecified there and left out. The values of
the defaults are the spec's decisions D4, D7 and D8 (logs 1 and 5). PC's row of the table is O1's
statement. That the status is Running at construction already, before the start, is the model's choice
(log 15). -/
def Obligations.ConstructedStateHasTheSpecsValues : Prop :=
  ∀ cfg : Config,
    (∀ r, (State.construct cfg).reg r = Regs.get cfg.gprReset r) ∧
    (State.construct cfg).cond = cfg.condReset ∧
    (∀ a, (State.construct cfg).memPeek a = 0#16) ∧
    (State.construct cfg).status = .running ∧ (State.construct cfg).micro = none ∧
    State.reset = State.construct Config.default ∧
    (∀ r, Regs.get Config.default.gprReset r = 0#16) ∧ Config.default.condReset = .zro ∧
    Config.default.kbsrAddr = 0xFE00#16 ∧ Config.default.kbdrAddr = Config.default.kbsrAddr + 1#16

/-- R125, R126, R127: a stream of big-endian words whose first word is the origin puts the others at
`origin`, `origin + 1`, ..., and changes nothing else. -/
def Obligations.LoadPlacesTheImage : Prop :=
  ∀ (s : State) (origin : Word) (words : List Word), origin.toNat + words.length ≤ 0x10000 →
    ∃ t, loadImage (some ((origin :: words).flatMap
            (fun w => [w.extractLsb' 8 8, w.extractLsb' 0 8]))) s = .ok t ∧
      (∀ k (h : k < words.length), t.memPeek (origin + BitVec.ofNat 16 k) = words[k]) ∧
      (∀ a : Word, (a.toNat < origin.toNat ∨ origin.toNat + words.length ≤ a.toNat) →
        t.memPeek a = s.memPeek a) ∧
      t = { s with mem := t.mem }

/-- R128 (the spec's decision D20): the load failures, that an overrun is refused, and that an odd final
byte is ignored. -/
def Obligations.LoadFailuresAndTheOddByte : Prop :=
  ∀ s : State,
    loadImage none s = .error .cannotOpen ∧
    (∀ stream : List Byte, stream.length < 2 → loadImage (some stream) s = .error .noOrigin) ∧
    (∀ (hi lo : Byte) (rest : List Byte), 0x10000 < hi.toNat * 256 + lo.toNat + rest.length / 2 →
      loadImage (some (hi :: lo :: rest)) s = .error .overrun) ∧
    (∀ (stream : List Byte) (odd : Byte), stream.length % 2 = 0 →
      loadImage (some (stream ++ [odd])) s = loadImage (some stream) s)

/-! ## Flags and sign extension -/

/-- R25: UpdateFlags by the sign of the value, one flag, nothing else changed; an instruction with a DR
tests the register's value after the write. -/
def Obligations.UpdateFlagsBySign : Prop :=
  ∀ (s : State) (v : Word),
    s.updateFlags v = { s with cond := flagOf v } ∧
    (v = 0#16 → flagOf v = .zro) ∧
    (v ≠ 0#16 → v.getLsbD 15 = true → flagOf v = .neg) ∧
    (v ≠ 0#16 → v.getLsbD 15 = false → flagOf v = .pos) ∧
    (flagOf v = .neg ↔ v.toInt < 0) ∧ (flagOf v = .pos ↔ 0 < v.toInt) ∧
    (∀ dr, (s.writeDest dr v).cond = flagOf ((s.writeDest dr v).reg dr))

/-- R27 and the last sentence of R78: COND's number is one-hot and BR's condition is `(ir[11:9] &
COND[2:0]) != 0`. The numbers are the spec's decision D6. -/
def Obligations.BranchTestOnCondNumber : Prop :=
  ∀ (n z p : Bool) (f : Flag),
    (branchTaken n z p f = true ↔
      (BitVec.ofBool n ++ BitVec.ofBool z ++ BitVec.ofBool p : BitVec 3) &&& (flagCode f).setWidth 3 ≠ 0#3) ∧
    ((flagCode f).setWidth 3 = 1#3 ∨ (flagCode f).setWidth 3 = 2#3 ∨ (flagCode f).setWidth 3 = 4#3) ∧
    (flagCode f).extractLsb' 3 13 = 0#13

/-- R10: `sext_N` keeps the signed value of its field, and the source's procedure agrees with it on
every value with no bit above N. -/
def Obligations.SignExtensionKeepsTheSignedValue : Prop :=
  ∀ n : Nat, 1 ≤ n → n ≤ 16 → ∀ v : Word,
    (sext (v.setWidth n)).toInt = (v.setWidth n).toInt ∧
    (v.toNat < 2 ^ n → signExtendSource v n = sext (v.setWidth n))

/-! ## Operate instructions -/

/-- R72, R73: ADD in both modes. -/
def Obligations.AddComputesTheSumAndFlags : Prop :=
  (∀ w : Word, w &&& 0xF020#16 = 0x1000#16 →
    decode w = .addReg (Reg.ofBits (w.extractLsb' 9 3)) (Reg.ofBits (w.extractLsb' 6 3))
      (Reg.ofBits (w.extractLsb' 0 3))) ∧
  (∀ w : Word, w &&& 0xF020#16 = 0x1020#16 →
    decode w = .addImm (Reg.ofBits (w.extractLsb' 9 3)) (Reg.ofBits (w.extractLsb' 6 3))
      (w.extractLsb' 0 5)) ∧
  (∀ (s : State) (dr sr1 sr2 : Reg), ∃ t, exec (.addReg dr sr1 sr2) s = .next t ∧
    s.destWritten t dr (s.reg sr1 + s.reg sr2)) ∧
  (∀ (s : State) (dr sr1 : Reg) (imm5 : BitVec 5), ∃ t, exec (.addImm dr sr1 imm5) s = .next t ∧
    s.destWritten t dr (s.reg sr1 + BitVec.ofInt 16 imm5.toInt))

/-- R74, R75: AND in both modes. -/
def Obligations.AndComputesTheMeetAndFlags : Prop :=
  (∀ w : Word, w &&& 0xF020#16 = 0x5000#16 →
    decode w = .andReg (Reg.ofBits (w.extractLsb' 9 3)) (Reg.ofBits (w.extractLsb' 6 3))
      (Reg.ofBits (w.extractLsb' 0 3))) ∧
  (∀ w : Word, w &&& 0xF020#16 = 0x5020#16 →
    decode w = .andImm (Reg.ofBits (w.extractLsb' 9 3)) (Reg.ofBits (w.extractLsb' 6 3))
      (w.extractLsb' 0 5)) ∧
  (∀ (s : State) (dr sr1 sr2 : Reg), ∃ t, exec (.andReg dr sr1 sr2) s = .next t ∧
    s.destWritten t dr (s.reg sr1 &&& s.reg sr2)) ∧
  (∀ (s : State) (dr sr1 : Reg) (imm5 : BitVec 5), ∃ t, exec (.andImm dr sr1 imm5) s = .next t ∧
    s.destWritten t dr (s.reg sr1 &&& BitVec.ofInt 16 imm5.toInt))

/-- R76: NOT. -/
def Obligations.NotComputesTheComplementAndFlags : Prop :=
  (∀ w : Word, w &&& 0xF000#16 = 0x9000#16 →
    decode w = .not (Reg.ofBits (w.extractLsb' 9 3)) (Reg.ofBits (w.extractLsb' 6 3))) ∧
  (∀ (s : State) (dr sr : Reg), ∃ t, exec (.not dr sr) s = .next t ∧ s.destWritten t dr (~~~ s.reg sr))

/-! ## Control transfer -/

/-- R78: BR, and that the test is `(ir[11:9] & COND[2:0]) != 0`. -/
def Obligations.BrBranchesOnARequestedFlag : Prop :=
  (∀ w : Word, w &&& 0xF000#16 = 0x0000#16 →
    decode w = .br (w.getLsbD 11) (w.getLsbD 10) (w.getLsbD 9) (w.extractLsb' 0 9)) ∧
  (∀ (s : State) (n z p : Bool) (off9 : BitVec 9), ∃ t, exec (.br n z p off9) s = .next t ∧
    t = { s with pc := t.pc } ∧
    (((n = true ∧ s.cond = .neg) ∨ (z = true ∧ s.cond = .zro) ∨ (p = true ∧ s.cond = .pos)) →
      t.pc = s.pc + BitVec.ofInt 16 off9.toInt) ∧
    (¬ ((n = true ∧ s.cond = .neg) ∨ (z = true ∧ s.cond = .zro) ∨ (p = true ∧ s.cond = .pos)) →
      t.pc = s.pc)) ∧
  (∀ (n z p : Bool) (f : Flag), ((n = true ∧ f = .neg) ∨ (z = true ∧ f = .zro) ∨ (p = true ∧ f = .pos)) ↔
    (BitVec.ofBool n ++ BitVec.ofBool z ++ BitVec.ofBool p : BitVec 3) &&& (flagCode f).setWidth 3 ≠ 0#3)

/-- R79, R80: JMP and its RET idiom. -/
def Obligations.JmpAndRetGoToTheBase : Prop :=
  (∀ w : Word, w &&& 0xF000#16 = 0xC000#16 →
    decode w = if Reg.ofBits (w.extractLsb' 6 3) = .r7 then .ret
      else .jmp (Reg.ofBits (w.extractLsb' 6 3))) ∧
  decode 0xC1C0#16 = .ret ∧
  (∀ (s : State) (base : Reg), exec (.jmp base) s = .next { s with pc := s.reg base }) ∧
  (∀ s : State, exec .ret s = .next { s with pc := s.reg .r7 })

/-- R81: JSR. -/
def Obligations.JsrLinksThenJumps : Prop :=
  (∀ w : Word, w &&& 0xF800#16 = 0x4800#16 → decode w = .jsr (w.extractLsb' 0 11)) ∧
  (∀ (s : State) (off11 : BitVec 11), ∃ t, exec (.jsr off11) s = .next t ∧
    t.reg .r7 = s.pc ∧ t.pc = s.pc + BitVec.ofInt 16 off11.toInt ∧
    (∀ r, r ≠ .r7 → t.reg r = s.reg r) ∧ t = { s with regs := t.regs, pc := t.pc })

/-- R82: JSRR reads BaseR after the R7 write. The order is the spec's decision D11 (log 10). -/
def Obligations.JsrrLinksThenReadsTheBase : Prop :=
  (∀ w : Word, w &&& 0xF800#16 = 0x4000#16 → decode w = .jsrr (Reg.ofBits (w.extractLsb' 6 3))) ∧
  (∀ (s : State) (base : Reg), ∃ t, exec (.jsrr base) s = .next t ∧
    t.reg .r7 = s.pc ∧ (base ≠ .r7 → t.pc = s.reg base) ∧ (base = .r7 → t.pc = s.pc) ∧
    (∀ r, r ≠ .r7 → t.reg r = s.reg r) ∧ t = { s with regs := t.regs, pc := t.pc })

/-! ## The memory primitives -/

/-- R39: MemRead, with the poll of KBSR, for every machine whose KBDR is another word than its KBSR (R44
puts it one higher). `afterRead` is the state it leaves, `memRead` the word it returns. What a poll
leaves of KBSR and KBDR is the spec's decisions D12 and D13 (log 10); the list of the host's answers is
the model's (log 2). -/
def Obligations.MemReadPollsExactlyAtKbsr : Prop :=
  ∀ s : State, s.cfg.kbdrAddr ≠ s.cfg.kbsrAddr →
    (∀ a, a ≠ s.cfg.kbsrAddr → s.afterRead a = s ∧ s.memRead a = s.memPeek a) ∧
    s.memRead s.cfg.kbsrAddr = (s.afterRead s.cfg.kbsrAddr).memPeek s.cfg.kbsrAddr ∧
    (∀ c rest, s.input = .key c :: rest →
      (s.afterRead s.cfg.kbsrAddr).memPeek s.cfg.kbsrAddr = s.memPeek s.cfg.kbsrAddr ||| 0x8000#16 ∧
      (s.afterRead s.cfg.kbsrAddr).memPeek s.cfg.kbdrAddr = c.setWidth 16 ∧
      (∀ a, a ≠ s.cfg.kbsrAddr → a ≠ s.cfg.kbdrAddr →
        (s.afterRead s.cfg.kbsrAddr).memPeek a = s.memPeek a) ∧
      (s.afterRead s.cfg.kbsrAddr).input = rest ∧
      (s.afterRead s.cfg.kbsrAddr).log = s.log ++ [.peekReady true, .readChar c] ∧
      s.afterRead s.cfg.kbsrAddr = { s with mem := (s.afterRead s.cfg.kbsrAddr).mem, input := rest, log := s.log ++ [.peekReady true, .readChar c] }) ∧
    ((s.input = [] ∨ ∃ rest, s.input = .quiet :: rest) →
      (s.afterRead s.cfg.kbsrAddr).memPeek s.cfg.kbsrAddr = s.memPeek s.cfg.kbsrAddr &&& 0x7FFF#16 ∧
      (∀ a, a ≠ s.cfg.kbsrAddr → (s.afterRead s.cfg.kbsrAddr).memPeek a = s.memPeek a) ∧
      s.afterRead s.cfg.kbsrAddr = { s with mem := (s.afterRead s.cfg.kbsrAddr).mem, input := s.input.tail, log := s.log ++ [.peekReady false] })

/-- R40: MemWrite is a plain store at every address, KBSR and KBDR included. -/
def Obligations.MemWriteIsPlainEverywhere : Prop :=
  ∀ (s : State) (a v : Word), s.wordStored (s.memWrite a v) a v

/-- R45: each read of KBSR polls again; the character of the first poll is lost if KBDR is not read in
between. The list of the host's answers is the model's (log 2). That a poll consumes the character and
leaves it zero-extended in KBDR is the spec's decision D13 (log 10). -/
def Obligations.EveryKbsrReadConsumesACharacter : Prop :=
  ∀ (s : State) (c d : Byte) (rest : List HostInput),
    s.cfg.kbdrAddr ≠ s.cfg.kbsrAddr → s.input = .key c :: .key d :: rest →
    ((s.afterRead s.cfg.kbsrAddr).afterRead s.cfg.kbsrAddr).memPeek s.cfg.kbdrAddr = d.setWidth 16 ∧
    ((s.afterRead s.cfg.kbsrAddr).afterRead s.cfg.kbsrAddr).input = rest ∧
    ((s.afterRead s.cfg.kbsrAddr).afterRead s.cfg.kbsrAddr).log =
      s.log ++ [.peekReady true, .readChar c, .peekReady true, .readChar d]

/-- R31, R37: memory in canonical form is determined by its 65,536 words, so equal memories are equal
data (the canonical form is the model's, log 12). -/
def Obligations.CanonicalMemoryIsItsWords : Prop :=
  ∀ m k : Memory, Memory.wf m = true → Memory.wf k = true →
    (∀ a : Word, Memory.read m a.toNat = Memory.read k a.toNat) → m = k

/-! ## Loads and stores -/

/-- R84: LD. -/
def Obligations.LdLoadsAndSetsFlags : Prop :=
  (∀ w : Word, w &&& 0xF000#16 = 0x2000#16 →
    decode w = .ld (Reg.ofBits (w.extractLsb' 9 3)) (w.extractLsb' 0 9)) ∧
  (∀ (s : State) (dr : Reg) (off9 : BitVec 9) (ea : Word), ea = s.pc + BitVec.ofInt 16 off9.toInt →
    ∃ t, exec (.ld dr off9) s = .next t ∧ (s.afterRead ea).destWritten t dr (s.memRead ea) ∧
      (ea ≠ s.cfg.kbsrAddr → s.destWritten t dr (s.memPeek ea)))

/-- R85: LDI, two reads, each of which may poll. -/
def Obligations.LdiLoadsThroughThePointer : Prop :=
  (∀ w : Word, w &&& 0xF000#16 = 0xA000#16 →
    decode w = .ldi (Reg.ofBits (w.extractLsb' 9 3)) (w.extractLsb' 0 9)) ∧
  (∀ (s : State) (dr : Reg) (off9 : BitVec 9) (pa p : Word),
    pa = s.pc + BitVec.ofInt 16 off9.toInt → p = s.memRead pa →
    ∃ t, exec (.ldi dr off9) s = .next t ∧
      ((s.afterRead pa).afterRead p).destWritten t dr ((s.afterRead pa).memRead p) ∧
      (pa ≠ s.cfg.kbsrAddr → p ≠ s.cfg.kbsrAddr →
        s.destWritten t dr (s.memPeek (s.memPeek pa))))

/-- R86: LDR. -/
def Obligations.LdrLoadsFromBasePlusOffset : Prop :=
  (∀ w : Word, w &&& 0xF000#16 = 0x6000#16 →
    decode w = .ldr (Reg.ofBits (w.extractLsb' 9 3)) (Reg.ofBits (w.extractLsb' 6 3))
      (w.extractLsb' 0 6)) ∧
  (∀ (s : State) (dr base : Reg) (off6 : BitVec 6) (ea : Word),
    ea = s.reg base + BitVec.ofInt 16 off6.toInt →
    ∃ t, exec (.ldr dr base off6) s = .next t ∧ (s.afterRead ea).destWritten t dr (s.memRead ea) ∧
      (ea ≠ s.cfg.kbsrAddr → s.destWritten t dr (s.memPeek ea)))

/-- R87: LEA, at every address, KBSR included, with no access. -/
def Obligations.LeaLoadsTheAddressWithoutAccess : Prop :=
  (∀ w : Word, w &&& 0xF000#16 = 0xE000#16 →
    decode w = .lea (Reg.ofBits (w.extractLsb' 9 3)) (w.extractLsb' 0 9)) ∧
  (∀ (s : State) (dr : Reg) (off9 : BitVec 9), ∃ t, exec (.lea dr off9) s = .next t ∧
    s.destWritten t dr (s.pc + BitVec.ofInt 16 off9.toInt))

/-- R88: ST. -/
def Obligations.StStoresPcRelative : Prop :=
  (∀ w : Word, w &&& 0xF000#16 = 0x3000#16 →
    decode w = .st (Reg.ofBits (w.extractLsb' 9 3)) (w.extractLsb' 0 9)) ∧
  (∀ (s : State) (sr : Reg) (off9 : BitVec 9), ∃ t, exec (.st sr off9) s = .next t ∧
    s.wordStored t (s.pc + BitVec.ofInt 16 off9.toInt) (s.reg sr))

/-- R89: STI, the pointer read with MemRead, then the plain store. That the pointer read polls is the
spec's decision D14 (log 10). -/
def Obligations.StiStoresThroughThePointer : Prop :=
  (∀ w : Word, w &&& 0xF000#16 = 0xB000#16 →
    decode w = .sti (Reg.ofBits (w.extractLsb' 9 3)) (w.extractLsb' 0 9)) ∧
  (∀ (s : State) (sr : Reg) (off9 : BitVec 9) (pa : Word),
    pa = s.pc + BitVec.ofInt 16 off9.toInt →
    ∃ t, exec (.sti sr off9) s = .next t ∧
      (s.afterRead pa).wordStored t (s.memRead pa) (s.reg sr) ∧
      (pa ≠ s.cfg.kbsrAddr → s.wordStored t (s.memPeek pa) (s.reg sr)))

/-- R90: STR. -/
def Obligations.StrStoresAtBasePlusOffset : Prop :=
  (∀ w : Word, w &&& 0xF000#16 = 0x7000#16 →
    decode w = .str (Reg.ofBits (w.extractLsb' 9 3)) (Reg.ofBits (w.extractLsb' 6 3))
      (w.extractLsb' 0 6)) ∧
  (∀ (s : State) (sr base : Reg) (off6 : BitVec 6), ∃ t, exec (.str sr base off6) s = .next t ∧
    s.wordStored t (s.reg base + BitVec.ofInt 16 off6.toInt) (s.reg sr))

/-- R54: a store to the word at PC is what the next fetch reads, whichever instruction stores it (a
fetch from KBSR polls and is R39's). -/
def Obligations.TheNextFetchSeesTheStore : Prop :=
  ∀ (s t : State) (i : Instr) (sr : Reg), s.pc ≠ s.cfg.kbsrAddr →
    ((∃ off9, i = .st sr off9) ∨ (∃ off9, i = .sti sr off9) ∨ (∃ base off6, i = .str sr base off6)) →
    storeAddress s i = some s.pc → exec i s = .next t →
    t.fetch.ir = s.reg sr ∧ t.fetch.pc = s.pc + 1#16

/-! ## TRAP and its routines -/

/-- R91: TRAP, the generic row: validation first, then the routine of the vector; every vector answers a
next state with PC and memory as before, none faults. That a GETC or IN held without a character (R102)
and a PUTS or PUTSP scan that never ends (R97, R99) answer a next state too is the model's choice (logs
2 and 7). The vectors are the spec's decision D3 and the link its open parameter D10 (log 10). The
diagnostic of the invalid vector is the spec's decision D26, its form the model's (log 16). -/
def Obligations.TrapValidatesThenRunsTheRoutine : Prop :=
  (∀ w : Word, w &&& 0xF000#16 = 0xF000#16 → decode w = decodeTrap (w.extractLsb' 0 8)) ∧
  (∀ (s : State) (v : BitVec 8), (v.toNat < 0x20 ∨ 0x25 < v.toNat) →
    exec (.trap v) s = .next { s with
      status := .halted (.badTrapVector v), diag := s.diag ++ [.badTrapVector v] }) ∧
  (∀ (s : State) (v : BitVec 8), 0x20 ≤ v.toNat → v.toNat ≤ 0x25 →
    exec (.trap v) s = exec (decodeTrap v) s ∧
    decodeTrap v ∈ [Instr.getc, .out, .puts, .inChar, .putsp, .halt]) ∧
  (∀ (s : State) (v : BitVec 8), ∃ t, exec (.trap v) s = .next t ∧ t.pc = s.pc ∧
    ∀ a, t.memPeek a = s.memPeek a)

/-- R95: GETC, where the host has a character (after any number of "not ready" marks, which a blocking
read waits out). The list of the host's answers is the model's (log 2); the link is the open parameter
of D10. -/
def Obligations.GetcReadsACharacterIntoR0 : Prop :=
  (∀ w : Word, w &&& 0xF0FF#16 = 0xF020#16 → decode w = .getc) ∧
  (∀ (s : State) (i : Instr) (n : Nat) (c : Byte) (rest : List HostInput),
    (i = .getc ∨ i = .trap 0x20#8) → s.input = List.replicate n .quiet ++ .key c :: rest →
    ∃ t, exec i s = .next t ∧ s.charRead t c ∧ t.input = rest ∧ t.log = s.log ++ [.readChar c])

/-- R96: OUT. Raw bytes are the spec's decision D24 (log 10); the link is the open parameter of D10. -/
def Obligations.OutWritesTheLowByteOfR0 : Prop :=
  (∀ w : Word, w &&& 0xF0FF#16 = 0xF021#16 → decode w = .out) ∧
  (∀ (s : State) (i : Instr), (i = .out ∨ i = .trap 0x21#8) →
    ∃ t, exec i s = .next t ∧ s.linkedOnly t ∧
      t.log = s.log ++ [.writeChar ((s.reg .r0).setWidth 8), .flush] ∧
      t = { s with regs := t.regs, micro := none, log := t.log })

/-- R97: PUTS on a string that ends: the low byte of each word, in order, then a flush; no poll, no
write to memory, wherever the string lies, and across 0xFFFF. No poll and the wrap are the spec's
decisions D14 and D15 (log 10). The link of R7 is R93's open parameter D10 (log 10). -/
def Obligations.PutsWritesTheLowBytes : Prop :=
  (∀ w : Word, w &&& 0xF0FF#16 = 0xF022#16 → decode w = .puts) ∧
  (∀ (s : State) (i : Instr) (ws : List Word), (i = .puts ∨ i = .trap 0x22#8) →
    s.stringAt (s.reg .r0) ws →
    ∃ t, exec i s = .next t ∧ s.linkedOnly t ∧
      t.log = s.log ++ ws.map (fun (w : Word) => .writeChar (w.setWidth 8)) ++ [.flush] ∧
      t = { s with regs := t.regs, micro := none, log := t.log })

/-- R98: IN, where the host has a character: prompt, flush, read, echo, flush, R0. The flushes and the
zero-extension are the spec's decision D16 (log 10); the list of the host's answers is the model's (log
2). The link of R7 is R93's open parameter D10 (log 10). -/
def Obligations.InPromptsReadsAndEchoes : Prop :=
  (∀ w : Word, w &&& 0xF0FF#16 = 0xF023#16 → decode w = .inChar) ∧
  (∀ (s : State) (i : Instr) (n : Nat) (c : Byte) (rest : List HostInput),
    (i = .inChar ∨ i = .trap 0x23#8) → s.input = List.replicate n .quiet ++ .key c :: rest →
    ∃ t, exec i s = .next t ∧ s.charRead t c ∧ t.input = rest ∧
      t.log = s.log ++ s.cfg.inPrompt.map .writeChar ++ [.flush, .readChar c, .writeChar c, .flush])

/-- R99: PUTSP on a string that ends: the low byte of each word, then its high byte if it is not zero.
No poll and the wrap are the spec's decisions D14 and D15 (log 10). The link of R7 is R93's open
parameter D10 (log 10). -/
def Obligations.PutspWritesPackedBytes : Prop :=
  (∀ w : Word, w &&& 0xF0FF#16 = 0xF024#16 → decode w = .putsp) ∧
  (∀ (s : State) (i : Instr) (ws : List Word), (i = .putsp ∨ i = .trap 0x24#8) →
    s.stringAt (s.reg .r0) ws →
    ∃ t, exec i s = .next t ∧ s.linkedOnly t ∧
      t.log = s.log ++ ws.flatMap (fun (w : Word) => .writeChar (w.setWidth 8) ::
        (if (w >>> 8).setWidth 8 = 0#8 then [] else [.writeChar ((w >>> 8).setWidth 8)])) ++ [.flush] ∧
      t = { s with regs := t.regs, micro := none, log := t.log })

/-- R100: HALT: the notice, a flush, and the normal end; PC stays. The flush is the spec's decision D17
(log 10). The link of R7 is R93's open parameter D10 (log 10). That HALT leaves the diagnostic channel
of the status port as it was is read from "not an error" (log 16; the channel is decision D26). -/
def Obligations.HaltWritesTheNoticeAndEndsTheRun : Prop :=
  (∀ w : Word, w &&& 0xF0FF#16 = 0xF025#16 → decode w = .halt) ∧
  (∀ (s : State) (i : Instr), (i = .halt ∨ i = .trap 0x25#8) →
    ∃ t, exec i s = .next t ∧ s.linkedOnly t ∧ t.endedNormally ∧
      t.log = s.log ++ s.cfg.haltNotice.map .writeChar ++ [.flush] ∧
      t = { s with regs := t.regs, micro := none, log := t.log, status := .halted .haltTrap })

/-- R101: an invalid vector halts before any mutation, with or without the link. The diagnostic channel
of the status port is not spoken of here (log 16). -/
def Obligations.InvalidVectorHaltsBeforeAnyMutation : Prop :=
  (∀ w : Word, w &&& 0xF000#16 = 0xF000#16 →
    ((w.extractLsb' 0 8).toNat < 0x20 ∨ 0x25 < (w.extractLsb' 0 8).toNat) →
    decode w = .trapInvalid (w.extractLsb' 0 8)) ∧
  (∀ (s : State) (v : BitVec 8), ∃ t, exec (.trapInvalid v) s = .next t ∧
    t = { s with status := .halted (.badTrapVector v), diag := t.diag })

/-- R103, R104: RTI halts with DecodeError(0x8), RES with DecodeError(0xD), and nothing else changes,
whatever the other twelve bits of the word. The diagnostic channel of the status port is not spoken of
here (log 16). -/
def Obligations.ReservedOpcodesHaltWithDecodeError : Prop :=
  (∀ w : Word, w &&& 0xF000#16 = 0x8000#16 → decode w = .rti) ∧
  (∀ s : State, ∃ t, exec .rti s = .next t ∧
    t = { s with status := .halted (.decodeError 0x8#4), diag := t.diag }) ∧
  (∀ w : Word, w &&& 0xF000#16 = 0xD000#16 → decode w = .res) ∧
  (∀ s : State, ∃ t, exec .res s = .next t ∧
    t = { s with status := .halted (.decodeError 0xD#4), diag := t.diag })

/-- R102: GETC with no character supplied is blocked in the read, R0 and COND as before; IN is blocked
after its prompt has been written and flushed; a step of the blocked machine changes nothing; and when
the host supplies a character the next step completes the read. That a blocked machine's `step` answers
its own state is the model's way to say "takes no step" (log 2). IN's flushes and the zero-extension
into R0 are the spec's decision D16 (log 10), the link is the open parameter of D10. -/
def Obligations.ConsoleReadsHoldUntilTheHostAnswers : Prop :=
  ∀ (s : State) (n : Nat), s.status = .running → s.input = List.replicate n .quiet →
    (∃ t, exec .getc s = .next t ∧ t.blocked ∧ s.linkedOnly t ∧
      t = { s with regs := t.regs, micro := some .gRead } ∧ step t = .next t ∧
      ∀ c, ∃ u, step (t.supply c) = .next u ∧ s.charRead u c ∧ u.log = s.log ++ [.readChar c] ∧
        u.input = []) ∧
    (∃ t, exec .inChar s = .next t ∧ t.blocked ∧ s.linkedOnly t ∧
      t.log = s.log ++ s.cfg.inPrompt.map .writeChar ++ [.flush] ∧
      t = { s with regs := t.regs, micro := some .iRead, log := t.log } ∧ step t = .next t ∧
      ∀ c, ∃ u, step (t.supply c) = .next u ∧ s.charRead u c ∧
        u.log = t.log ++ [.readChar c, .writeChar c, .flush] ∧ u.input = [])

/-- R97, R99 (the corner case): with no zero word in memory a scan never ends: the routine is still
scanning after its step and after every later one, and no step changes anything but the handler and the
console, but for the link of R7 in the TRAP step itself. The link of R7 is R93's open parameter D10 (log
10). Where the scan stands after a step is the model's choice (log 7). -/
def Obligations.ScanWithoutAZeroWordNeverEnds : Prop :=
  (∀ (s : State) (i : Instr), s.noZeroWord → (i = .puts ∨ i = .putsp) →
    ∃ t, exec i s = .next t ∧ t.scanning ∧ s.linkedOnly t ∧
      t = { s with regs := t.regs, micro := t.micro, log := t.log }) ∧
  (∀ s : State, s.noZeroWord → s.status = .running → s.scanning →
    ∃ t, step s = .next t ∧ t.scanning ∧ t = { s with micro := t.micro, log := t.log })

/-! ## Encoding and decoding -/

/-- R57, R59: decoding the encoding of a well-formed instruction gives it back, with every operand at
every value. The layout and the numbers are the spec's decisions D1, D2 and D3 (log 10). -/
def Obligations.DecodeOfEncodeIsTheInstruction : Prop :=
  ∀ i : Instr, i.wellFormed = true → decode (encode i) = i

/-- R57, R62: encoding what a word decodes to gives back every bit that a field or the opcode names. The
layout is the spec's decision D1 (log 10). -/
def Obligations.EncodeOfDecodeKeepsTheNamedBits : Prop :=
  ∀ w : Word, encode (decode w) &&& ~~~ (decode w).ignoredBits = w &&& ~~~ (decode w).ignoredBits

/-- R62: the bits no field names are ignored: changing them changes nothing that is decoded. That is the
spec's decision D9 (log 10). -/
def Obligations.UnnamedBitsAreIgnored : Prop :=
  ∀ w m : Word, m &&& ~~~ (decode w).ignoredBits = 0#16 → decode (w ^^^ m) = decode w

/-- R65 and the legend of the opcode table: every word decodes to a well-formed instruction whose row it
matches. -/
def Obligations.EveryWordDecodesToItsTableRow : Prop :=
  ∀ w : Word, (decode w).wellFormed = true ∧ w &&& (decode w).tableMask = (decode w).tableMatch

/-- R80 and the legend of the opcode table: the two alias rows are other spellings: JMP R7 and the
generic TRAP do what their words decode to. -/
def Obligations.AliasRowsMeanWhatTheirWordsDecodeTo : Prop :=
  ∀ s : State,
    (decode (encode (.jmp .r7)) = .ret ∧ exec (.jmp .r7) s = exec .ret s) ∧
    (∀ v : BitVec 8, decode (encode (.trap v)) = decodeTrap v ∧ exec (.trap v) s = exec (decodeTrap v) s)

/-- R57, R59, R60: a few words written out from the tables. The layout is the spec's decision D1 (log
10). -/
def Obligations.WordsOfTheSpecDecode : Prop :=
  decode 0b0001010000000001#16 = .addReg .r2 .r0 .r1 ∧
  decode 0b0101011001000010#16 = .andReg .r3 .r1 .r2 ∧
  decode 0b1001100101111111#16 = .not .r4 .r5 ∧
  decode 0b0000101111111110#16 = .br true false true 0x1FE#9 ∧
  decode 0b0100100000000010#16 = .jsr 2#11 ∧
  decode 0b0110100001000000#16 = .ldr .r4 .r1 0#6 ∧
  decode 0b1011010000000100#16 = .sti .r2 4#9 ∧
  decode 0b1111000000100011#16 = .inChar ∧
  decode 0b1000000000000000#16 = .rti

/-! ## The step -/

/-- R66: a step of a running machine whose handler is idle executes the instruction that the word at PC
decodes to, in the state after the fetch: `ir` loaded by a MemRead of PC, PC incremented, the opcode
traced if TRACE. That the fetch is a MemRead, which polls at KBSR, is the spec's decision D14 (log 10);
that the trace is a list of opcodes is the model's (log 8). -/
def Obligations.StepRunsTheDecodedInstruction : Prop :=
  ∀ (s : State) (w : Word) (i : Instr), s.status = .running → s.micro = none →
    w = s.memRead s.pc → decode w = i → (s.cfg.strictReservedBits = true → standardBits w = true) →
    step s = exec i { s.afterRead s.pc with
      ir := w, pc := s.pc + 1#16, trace := if s.cfg.trace then s.trace ++ [i.opcode] else s.trace }

/-- R57, R62: with STRICT_RESERVED_BITS on, a step refuses the fetched word exactly when one of its u bits
differs from the standard value that R57 gives it, and with the switch off it refuses nothing; and the
words the encoder writes have the standard values. `nonStandard` is R57's table written out: ADD and AND
in register mode 4:3 = 00, NOT 5:0 = 111111, JMP 11:9 = 000 and 5:0 = 000000, JSRR 10:9 = 00 and 5:0 =
000000, TRAP 11:8 = 0000, RTI 11:0 = 0. The switch is the spec's decision D9; that RTI's bits are checked
and those of RES, which have no standard value, are not is log 9. -/
def Obligations.StrictSwitchRefusesNonStandardBits : Prop :=
  let nonStandard : Word → Prop := fun w =>
    (w &&& 0xF020#16 = 0x1000#16 ∧ w &&& 0x0018#16 ≠ 0x0000#16) ∨
    (w &&& 0xF020#16 = 0x5000#16 ∧ w &&& 0x0018#16 ≠ 0x0000#16) ∨
    (w &&& 0xF000#16 = 0x9000#16 ∧ w &&& 0x003F#16 ≠ 0x003F#16) ∨
    (w &&& 0xF000#16 = 0xC000#16 ∧ w &&& 0x0E3F#16 ≠ 0x0000#16) ∨
    (w &&& 0xF800#16 = 0x4000#16 ∧ w &&& 0x063F#16 ≠ 0x0000#16) ∨
    (w &&& 0xF000#16 = 0xF000#16 ∧ w &&& 0x0F00#16 ≠ 0x0000#16) ∨
    (w &&& 0xF000#16 = 0x8000#16 ∧ w &&& 0x0FFF#16 ≠ 0x0000#16)
  (∀ s : State, s.status = .running → s.micro = none →
    (step s = .refused (.reservedBits (s.memRead s.pc)) ↔
      (s.cfg.strictReservedBits = true ∧ nonStandard (s.memRead s.pc)))) ∧
  (∀ i : Instr, ¬ nonStandard (encode i))

/-- R32, R65, R66, R106: no step is enabled in a halted machine: that `step` says so by a fault is the
model's (log 3). A running machine answers a next state, whatever the word, unless the strict switch
refuses it: with the switch off always, with it on for a word whose u bits are standard, and while the
trap handler is not idle. For a machine blocked in GETC or IN, which takes no step (R102), that next state
is its own: the model's way to say so (log 2); a scan that never ends is gone on with (log 7). -/
def Obligations.StepIsEnabledExactlyWhileRunning : Prop :=
  ∀ s : State,
    (∀ r, s.status = .halted r → step s = .fault (.halted r)) ∧
    (s.status = .running →
      (s.cfg.strictReservedBits = true → s.micro = none → standardBits (s.memRead s.pc) = true) →
      ∃ t, step s = .next t) ∧
    (s.blocked → step s = .next s)

/-- R64: the all-zero word only advances PC (here with the trace off, and not fetched from KBSR). -/
def Obligations.ZeroWordIsANoOp : Prop :=
  ∀ s : State, s.status = .running → s.micro = none → s.cfg.trace = false →
    s.pc ≠ s.cfg.kbsrAddr → s.memPeek s.pc = 0x0000#16 →
    step s = .next { s with ir := 0x0000#16, pc := s.pc + 1#16 }

/-- The fetch word interface of the model (log 13): the next step runs exactly the placed word. -/
def Obligations.PlacedWordIsTheOneRun : Prop :=
  ∀ (s : State) (w : Word), s.cfg.strictReservedBits = false → s.cfg.kbdrAddr ≠ s.cfg.kbsrAddr →
    step (s.withFetchWord 16 w.toNat) = exec (decode w) (s.withFetchWord 16 w.toNat).fetched ∧
    (s.withFetchWord 16 w.toNat).fetched.ir = w ∧
    (s.withFetchWord 16 w.toNat).fetched.pc = s.pc + 1#16

/-! ## Whole-machine rules -/

/-- R20: a general register changes only where the table of R20 says so. The link of TRAP is the open
parameter of D10. -/
def Obligations.OnlyListedRegistersAreWritten : Prop :=
  ∀ (i : Instr) (s t : State) (r : Reg), exec i s = .next t → r ∉ writtenRegs s.cfg i → t.reg r = s.reg r

/-- R21: after the fetch, PC changes only by BR, JMP, RET, JSR, JSRR. -/
def Obligations.OnlyControlTransfersWritePc : Prop :=
  ∀ (i : Instr) (s t : State), exec i s = .next t → writesPC i = false → t.pc = s.pc

/-- R26: COND changes only by the instructions of R26. -/
def Obligations.OnlyListedInstructionsWriteCond : Prop :=
  ∀ (i : Instr) (s t : State), exec i s = .next t → writesCond i = false → t.cond = s.cond

/-- R38, R39: memory changes only at the address a store computes, and, where the instruction reads KBSR
with MemRead and so polls, at KBSR and KBDR: an instruction that reads no KBSR (a store's own address is
not read) changes no other word than the one it stores to. -/
def Obligations.MemoryChangesOnlyByStoresAndPolls : Prop :=
  ∀ (i : Instr) (s t : State) (a : Word), exec i s = .next t → storeAddress s i ≠ some a →
    (s.cfg.kbsrAddr ∉ readAddresses s i ∨ (a ≠ s.cfg.kbsrAddr ∧ a ≠ s.cfg.kbdrAddr)) →
    t.memPeek a = s.memPeek a

/-- R105, R106: an instruction halts exactly if it is one of the halting ones, and with their reason;
otherwise the status is as it was. Every error halt, and nothing else, adds its diagnostic to the status
port's channel: that is the spec's decision D26, its form the model's (log 16). -/
def Obligations.OnlyListedInstructionsHalt : Prop :=
  ∀ (i : Instr) (s t : State), exec i s = .next t →
    t.status = (match haltOf i with | some r => .halted r | none => s.status) ∧
    t.diag = (match haltOf i with
      | some r => if r = .haltTrap then s.diag else s.diag ++ [r]
      | none => s.diag)

/-- R19, R105: no step ever halts with OperandError, and an error halt is a DecodeError of 0x8 or 0xD or
a BadTrapVector of an invalid vector. -/
def Obligations.HaltReasonsThatCanBeReached : Prop :=
  ∀ s t : State, step s = .next t →
    t.status = .running ∨ t.status = .halted .haltTrap ∨
    t.status = .halted (.decodeError 0x8#4) ∨ t.status = .halted (.decodeError 0xD#4) ∨
    ∃ v : BitVec 8, (v.toNat < 0x20 ∨ 0x25 < v.toNat) ∧ t.status = .halted (.badTrapVector v)

/-- The invariant of the machine (memory canonical, handler at rest, idle when ended) holds at
construction and after a load. The canonical form (log 12) is the model's. -/
def Obligations.InvariantHoldsAtStart : Prop :=
  State.reset.Inv ∧ (∀ cfg, (State.construct cfg).Inv) ∧
  (∀ cfg stream s, boot cfg stream = .ok s → s.Inv)

/-- Every step keeps the invariant: whatever the instruction, the memory and the host's answers. The
canonical form (log 12) and the places where the handler may rest between steps (logs 2 and 7) are the
model's. -/
def Obligations.StepKeepsTheInvariant : Prop :=
  ∀ s t : State, s.Inv → step s = .next t → t.Inv

/-- R7: the parameters are fixed for one machine. That the parameters stand in State, and that no step
writes them, is the model's form of it (log 1). -/
def Obligations.NoStepChangesTheParameters : Prop :=
  ∀ s t : State, step s = .next t → t.cfg = s.cfg

/-- R52: console operations happen in program order: what was issued stays issued, and a step only adds
to it. -/
def Obligations.ConsoleOperationsAreNeverTakenBack : Prop :=
  ∀ s t : State, step s = .next t → s.log <+: t.log

/-- R33: `ir` has no architectural visibility: what it held before the fetch makes no difference to a
step. -/
def Obligations.OldInstructionRegisterIsInvisible : Prop :=
  ∀ (s : State) (w : Word), s.status = .running → s.micro = none → step { s with ir := w } = step s

/-- R68: the trace has no effect on semantics: with the trace and its switch taken out, a step is the
same. That the trace is a list of opcodes is the model's (log 8). -/
def Obligations.TraceHasNoEffectOnSemantics : Prop :=
  ∀ s : State, untracedOutcome (step s) = untracedOutcome (step s.untraced)
end

