-- ==== Sys2Proof/Laws/Decode.lean ====
section
/-! SUPPORT. The laws of the register and opcode fields, and the decoder opcode by opcode
(30_encoding.md R57 to R65). -/

namespace Sys2Proof

@[simp] theorem Reg.ofBits_bits (r : Reg) : Reg.ofBits r.bits = r := by cases r <;> rfl

@[simp] theorem Reg.bits_ofBits : ∀ b : BitVec 3, (Reg.ofBits b).bits = b := by decide

@[simp] theorem Opcode.ofBits_bits (o : Opcode) : Opcode.ofBits o.bits = o := by cases o <;> rfl

@[simp] theorem Opcode.bits_ofBits : ∀ b : BitVec 4, (Opcode.ofBits b).bits = b := by decide

/-! ## The fields of an assembled word -/

theorem field_encode_opcode (o : BitVec 4) (b : BitVec 12) : field (o ++ b) 12 4 = o := by
  exact BitVec.extractLsb'_append_eq_left

theorem field_encode_operand {o : BitVec 4} {b : BitVec 12} {lo n : Nat} (h : lo + n ≤ 12) :
    field (o ++ b) lo n = b.extractLsb' lo n := by
  unfold field
  exact BitVec.extractLsb'_append_eq_of_add_le h

/-- The opcode the decoder reads from an encoded instruction (the family `OpcodeOfEncoding`). -/
theorem opcode_encode (i : Instr) : Opcode.ofBits (field (encode i) 12 4) = i.opcode := by
  rw [encode, field_encode_opcode, Opcode.ofBits_bits]

/-! ## The bits of a word under a mask -/

/-- A bit that a mask fixes is the bit of the row's match value. -/
theorem bit_of_mask {w m k : Word} (h : w &&& m = k) (i : Nat) (hm : m.getLsbD i = true) :
    w.getLsbD i = k.getLsbD i := by
  rw [← h, BitVec.getLsbD_and, hm, Bool.and_true]

/-- A field that a mask fixes whole is the field of the row's match value. -/
theorem field_of_mask {w m k : Word} (h : w &&& m = k) (lo n : Nat)
    (hm : ∀ i, i < n → m.getLsbD (lo + i) = true) : field w lo n = field k lo n := by
  apply BitVec.eq_of_getLsbD_eq
  intro i hi
  simp only [field, BitVec.getLsbD_extractLsb', hi, decide_true, Bool.true_and]
  exact bit_of_mask h _ (hm i hi)

/-- The opcode of a word whose row fixes the top four bits. -/
theorem opcode_of_mask {w m k : Word} (h : w &&& m = k)
    (hm : ∀ i, i < 4 → m.getLsbD (12 + i) = true) :
    Opcode.ofBits (field w 12 4) = Opcode.ofBits (field k 12 4) := by
  rw [field_of_mask h 12 4 hm]

/-! ## Trap vectors -/

theorem validVector_iff (v : BitVec 8) : validVector v = true ↔ 0x20 ≤ v.toNat ∧ v.toNat ≤ 0x25 := by
  simp [validVector, BitVec.le_def]

theorem decodeTrap_invalid {v : BitVec 8} (h : validVector v = false) :
    decodeTrap v = .trapInvalid v := by
  revert v; decide

theorem decodeTrap_wellFormed : ∀ v : BitVec 8, (decodeTrap v).wellFormed = true := by decide

theorem decodeJmp_wellFormed (b : Reg) : (decodeJmp b).wellFormed = true := by cases b <;> rfl

end Sys2Proof
end

