-- ==== Sys2Proof/Laws/State.lean ====
section
/-! SUPPORT. One lemma for each field of State after each operation, so that no later proof unfolds a
record update; the register file's read and write laws; what a poll and a MemRead leave. -/

namespace Sys2Proof.Machine

/-! ## The fields after each operation -/

@[simp] theorem State.setReg_cfg (s : State) (r : Reg) (v : Word) :
    (s.setReg r v).cfg = s.cfg := rfl
@[simp] theorem State.setReg_regs (s : State) (r : Reg) (v : Word) :
    (s.setReg r v).regs = Regs.set s.regs r v := rfl
@[simp] theorem State.setReg_pc (s : State) (r : Reg) (v : Word) : (s.setReg r v).pc = s.pc := rfl
@[simp] theorem State.setReg_cond (s : State) (r : Reg) (v : Word) :
    (s.setReg r v).cond = s.cond := rfl
@[simp] theorem State.setReg_ir (s : State) (r : Reg) (v : Word) : (s.setReg r v).ir = s.ir := rfl
@[simp] theorem State.setReg_mem (s : State) (r : Reg) (v : Word) :
    (s.setReg r v).mem = s.mem := rfl
@[simp] theorem State.setReg_status (s : State) (r : Reg) (v : Word) :
    (s.setReg r v).status = s.status := rfl
@[simp] theorem State.setReg_micro (s : State) (r : Reg) (v : Word) :
    (s.setReg r v).micro = s.micro := rfl
@[simp] theorem State.setReg_input (s : State) (r : Reg) (v : Word) :
    (s.setReg r v).input = s.input := rfl
@[simp] theorem State.setReg_log (s : State) (r : Reg) (v : Word) :
    (s.setReg r v).log = s.log := rfl
@[simp] theorem State.setReg_trace (s : State) (r : Reg) (v : Word) :
    (s.setReg r v).trace = s.trace := rfl
@[simp] theorem State.setReg_diag (s : State) (r : Reg) (v : Word) :
    (s.setReg r v).diag = s.diag := rfl

@[simp] theorem State.setPC_cfg (s : State) (v : Word) : (s.setPC v).cfg = s.cfg := rfl
@[simp] theorem State.setPC_regs (s : State) (v : Word) : (s.setPC v).regs = s.regs := rfl
@[simp] theorem State.setPC_pc (s : State) (v : Word) : (s.setPC v).pc = v := rfl
@[simp] theorem State.setPC_cond (s : State) (v : Word) : (s.setPC v).cond = s.cond := rfl
@[simp] theorem State.setPC_ir (s : State) (v : Word) : (s.setPC v).ir = s.ir := rfl
@[simp] theorem State.setPC_mem (s : State) (v : Word) : (s.setPC v).mem = s.mem := rfl
@[simp] theorem State.setPC_status (s : State) (v : Word) : (s.setPC v).status = s.status := rfl
@[simp] theorem State.setPC_micro (s : State) (v : Word) : (s.setPC v).micro = s.micro := rfl
@[simp] theorem State.setPC_input (s : State) (v : Word) : (s.setPC v).input = s.input := rfl
@[simp] theorem State.setPC_log (s : State) (v : Word) : (s.setPC v).log = s.log := rfl
@[simp] theorem State.setPC_trace (s : State) (v : Word) : (s.setPC v).trace = s.trace := rfl
@[simp] theorem State.setPC_diag (s : State) (v : Word) : (s.setPC v).diag = s.diag := rfl

@[simp] theorem State.issue_cfg (s : State) (op : ConsoleOp) : (s.issue op).cfg = s.cfg := rfl
@[simp] theorem State.issue_regs (s : State) (op : ConsoleOp) : (s.issue op).regs = s.regs := rfl
@[simp] theorem State.issue_pc (s : State) (op : ConsoleOp) : (s.issue op).pc = s.pc := rfl
@[simp] theorem State.issue_cond (s : State) (op : ConsoleOp) : (s.issue op).cond = s.cond := rfl
@[simp] theorem State.issue_ir (s : State) (op : ConsoleOp) : (s.issue op).ir = s.ir := rfl
@[simp] theorem State.issue_mem (s : State) (op : ConsoleOp) : (s.issue op).mem = s.mem := rfl
@[simp] theorem State.issue_status (s : State) (op : ConsoleOp) :
    (s.issue op).status = s.status := rfl
@[simp] theorem State.issue_micro (s : State) (op : ConsoleOp) : (s.issue op).micro = s.micro := rfl
@[simp] theorem State.issue_input (s : State) (op : ConsoleOp) : (s.issue op).input = s.input := rfl
@[simp] theorem State.issue_log (s : State) (op : ConsoleOp) :
    (s.issue op).log = s.log ++ [op] := rfl
@[simp] theorem State.issue_trace (s : State) (op : ConsoleOp) : (s.issue op).trace = s.trace := rfl
@[simp] theorem State.issue_diag (s : State) (op : ConsoleOp) : (s.issue op).diag = s.diag := rfl

@[simp] theorem State.writeChar_cfg (s : State) (b : Byte) : (s.writeChar b).cfg = s.cfg := rfl
@[simp] theorem State.writeChar_regs (s : State) (b : Byte) : (s.writeChar b).regs = s.regs := rfl
@[simp] theorem State.writeChar_pc (s : State) (b : Byte) : (s.writeChar b).pc = s.pc := rfl
@[simp] theorem State.writeChar_cond (s : State) (b : Byte) : (s.writeChar b).cond = s.cond := rfl
@[simp] theorem State.writeChar_ir (s : State) (b : Byte) : (s.writeChar b).ir = s.ir := rfl
@[simp] theorem State.writeChar_mem (s : State) (b : Byte) : (s.writeChar b).mem = s.mem := rfl
@[simp] theorem State.writeChar_status (s : State) (b : Byte) :
    (s.writeChar b).status = s.status := rfl
@[simp] theorem State.writeChar_micro (s : State) (b : Byte) :
    (s.writeChar b).micro = s.micro := rfl
@[simp] theorem State.writeChar_input (s : State) (b : Byte) :
    (s.writeChar b).input = s.input := rfl
@[simp] theorem State.writeChar_log (s : State) (b : Byte) :
    (s.writeChar b).log = s.log ++ [.writeChar b] := rfl
@[simp] theorem State.writeChar_trace (s : State) (b : Byte) :
    (s.writeChar b).trace = s.trace := rfl
@[simp] theorem State.writeChar_diag (s : State) (b : Byte) : (s.writeChar b).diag = s.diag := rfl

@[simp] theorem State.flush_cfg (s : State) : (s.flush).cfg = s.cfg := rfl
@[simp] theorem State.flush_regs (s : State) : (s.flush).regs = s.regs := rfl
@[simp] theorem State.flush_pc (s : State) : (s.flush).pc = s.pc := rfl
@[simp] theorem State.flush_cond (s : State) : (s.flush).cond = s.cond := rfl
@[simp] theorem State.flush_ir (s : State) : (s.flush).ir = s.ir := rfl
@[simp] theorem State.flush_mem (s : State) : (s.flush).mem = s.mem := rfl
@[simp] theorem State.flush_status (s : State) : (s.flush).status = s.status := rfl
@[simp] theorem State.flush_micro (s : State) : (s.flush).micro = s.micro := rfl
@[simp] theorem State.flush_input (s : State) : (s.flush).input = s.input := rfl
@[simp] theorem State.flush_log (s : State) : (s.flush).log = s.log ++ [.flush] := rfl
@[simp] theorem State.flush_trace (s : State) : (s.flush).trace = s.trace := rfl
@[simp] theorem State.flush_diag (s : State) : (s.flush).diag = s.diag := rfl

@[simp] theorem State.supply_cfg (s : State) (c : Byte) : (s.supply c).cfg = s.cfg := rfl
@[simp] theorem State.supply_regs (s : State) (c : Byte) : (s.supply c).regs = s.regs := rfl
@[simp] theorem State.supply_pc (s : State) (c : Byte) : (s.supply c).pc = s.pc := rfl
@[simp] theorem State.supply_cond (s : State) (c : Byte) : (s.supply c).cond = s.cond := rfl
@[simp] theorem State.supply_ir (s : State) (c : Byte) : (s.supply c).ir = s.ir := rfl
@[simp] theorem State.supply_mem (s : State) (c : Byte) : (s.supply c).mem = s.mem := rfl
@[simp] theorem State.supply_status (s : State) (c : Byte) : (s.supply c).status = s.status := rfl
@[simp] theorem State.supply_micro (s : State) (c : Byte) : (s.supply c).micro = s.micro := rfl
@[simp] theorem State.supply_input (s : State) (c : Byte) :
    (s.supply c).input = s.input ++ [.key c] := rfl
@[simp] theorem State.supply_log (s : State) (c : Byte) : (s.supply c).log = s.log := rfl
@[simp] theorem State.supply_trace (s : State) (c : Byte) : (s.supply c).trace = s.trace := rfl
@[simp] theorem State.supply_diag (s : State) (c : Byte) : (s.supply c).diag = s.diag := rfl

@[simp] theorem State.memWrite_cfg (s : State) (a v : Word) : (s.memWrite a v).cfg = s.cfg := rfl
@[simp] theorem State.memWrite_regs (s : State) (a v : Word) : (s.memWrite a v).regs = s.regs := rfl
@[simp] theorem State.memWrite_pc (s : State) (a v : Word) : (s.memWrite a v).pc = s.pc := rfl
@[simp] theorem State.memWrite_cond (s : State) (a v : Word) : (s.memWrite a v).cond = s.cond := rfl
@[simp] theorem State.memWrite_ir (s : State) (a v : Word) : (s.memWrite a v).ir = s.ir := rfl
@[simp] theorem State.memWrite_mem (s : State) (a v : Word) :
    (s.memWrite a v).mem = Memory.write s.mem a.toNat v := rfl
@[simp] theorem State.memWrite_status (s : State) (a v : Word) :
    (s.memWrite a v).status = s.status := rfl
@[simp] theorem State.memWrite_micro (s : State) (a v : Word) :
    (s.memWrite a v).micro = s.micro := rfl
@[simp] theorem State.memWrite_input (s : State) (a v : Word) :
    (s.memWrite a v).input = s.input := rfl
@[simp] theorem State.memWrite_log (s : State) (a v : Word) : (s.memWrite a v).log = s.log := rfl
@[simp] theorem State.memWrite_trace (s : State) (a v : Word) :
    (s.memWrite a v).trace = s.trace := rfl
@[simp] theorem State.memWrite_diag (s : State) (a v : Word) : (s.memWrite a v).diag = s.diag := rfl

@[simp] theorem State.raiseHalt_cfg (s : State) (r : HaltReason) :
    (s.raiseHalt r).cfg = s.cfg := rfl
@[simp] theorem State.raiseHalt_regs (s : State) (r : HaltReason) :
    (s.raiseHalt r).regs = s.regs := rfl
@[simp] theorem State.raiseHalt_pc (s : State) (r : HaltReason) : (s.raiseHalt r).pc = s.pc := rfl
@[simp] theorem State.raiseHalt_cond (s : State) (r : HaltReason) :
    (s.raiseHalt r).cond = s.cond := rfl
@[simp] theorem State.raiseHalt_ir (s : State) (r : HaltReason) : (s.raiseHalt r).ir = s.ir := rfl
@[simp] theorem State.raiseHalt_mem (s : State) (r : HaltReason) :
    (s.raiseHalt r).mem = s.mem := rfl
@[simp] theorem State.raiseHalt_status (s : State) (r : HaltReason) :
    (s.raiseHalt r).status = .halted r := rfl
@[simp] theorem State.raiseHalt_micro (s : State) (r : HaltReason) :
    (s.raiseHalt r).micro = s.micro := rfl
@[simp] theorem State.raiseHalt_input (s : State) (r : HaltReason) :
    (s.raiseHalt r).input = s.input := rfl
@[simp] theorem State.raiseHalt_log (s : State) (r : HaltReason) :
    (s.raiseHalt r).log = s.log := rfl
@[simp] theorem State.raiseHalt_trace (s : State) (r : HaltReason) :
    (s.raiseHalt r).trace = s.trace := rfl
@[simp] theorem State.raiseHalt_diag (s : State) (r : HaltReason) :
    (s.raiseHalt r).diag = r.diagnose s.diag := rfl

@[simp] theorem State.setCond_cfg (s : State) (f : Flag) : (s.setCond f).cfg = s.cfg := rfl
@[simp] theorem State.setCond_regs (s : State) (f : Flag) : (s.setCond f).regs = s.regs := rfl
@[simp] theorem State.setCond_pc (s : State) (f : Flag) : (s.setCond f).pc = s.pc := rfl
@[simp] theorem State.setCond_cond (s : State) (f : Flag) : (s.setCond f).cond = f := rfl
@[simp] theorem State.setCond_ir (s : State) (f : Flag) : (s.setCond f).ir = s.ir := rfl
@[simp] theorem State.setCond_mem (s : State) (f : Flag) : (s.setCond f).mem = s.mem := rfl
@[simp] theorem State.setCond_status (s : State) (f : Flag) : (s.setCond f).status = s.status := rfl
@[simp] theorem State.setCond_micro (s : State) (f : Flag) : (s.setCond f).micro = s.micro := rfl
@[simp] theorem State.setCond_input (s : State) (f : Flag) : (s.setCond f).input = s.input := rfl
@[simp] theorem State.setCond_log (s : State) (f : Flag) : (s.setCond f).log = s.log := rfl
@[simp] theorem State.setCond_trace (s : State) (f : Flag) : (s.setCond f).trace = s.trace := rfl
@[simp] theorem State.setCond_diag (s : State) (f : Flag) : (s.setCond f).diag = s.diag := rfl

@[simp] theorem State.updateFlags_cfg (s : State) (v : Word) : (s.updateFlags v).cfg = s.cfg := rfl
@[simp] theorem State.updateFlags_regs (s : State) (v : Word) :
    (s.updateFlags v).regs = s.regs := rfl
@[simp] theorem State.updateFlags_pc (s : State) (v : Word) : (s.updateFlags v).pc = s.pc := rfl
@[simp] theorem State.updateFlags_cond (s : State) (v : Word) :
    (s.updateFlags v).cond = flagOf v := rfl
@[simp] theorem State.updateFlags_ir (s : State) (v : Word) : (s.updateFlags v).ir = s.ir := rfl
@[simp] theorem State.updateFlags_mem (s : State) (v : Word) : (s.updateFlags v).mem = s.mem := rfl
@[simp] theorem State.updateFlags_status (s : State) (v : Word) :
    (s.updateFlags v).status = s.status := rfl
@[simp] theorem State.updateFlags_micro (s : State) (v : Word) :
    (s.updateFlags v).micro = s.micro := rfl
@[simp] theorem State.updateFlags_input (s : State) (v : Word) :
    (s.updateFlags v).input = s.input := rfl
@[simp] theorem State.updateFlags_log (s : State) (v : Word) : (s.updateFlags v).log = s.log := rfl
@[simp] theorem State.updateFlags_trace (s : State) (v : Word) :
    (s.updateFlags v).trace = s.trace := rfl
@[simp] theorem State.updateFlags_diag (s : State) (v : Word) :
    (s.updateFlags v).diag = s.diag := rfl

@[simp] theorem State.goto_cfg (s : State) (t : Option TrapState) : (s.goto t).cfg = s.cfg := rfl
@[simp] theorem State.goto_regs (s : State) (t : Option TrapState) : (s.goto t).regs = s.regs := rfl
@[simp] theorem State.goto_pc (s : State) (t : Option TrapState) : (s.goto t).pc = s.pc := rfl
@[simp] theorem State.goto_cond (s : State) (t : Option TrapState) : (s.goto t).cond = s.cond := rfl
@[simp] theorem State.goto_ir (s : State) (t : Option TrapState) : (s.goto t).ir = s.ir := rfl
@[simp] theorem State.goto_mem (s : State) (t : Option TrapState) : (s.goto t).mem = s.mem := rfl
@[simp] theorem State.goto_status (s : State) (t : Option TrapState) :
    (s.goto t).status = s.status := rfl
@[simp] theorem State.goto_micro (s : State) (t : Option TrapState) : (s.goto t).micro = t := rfl
@[simp] theorem State.goto_input (s : State) (t : Option TrapState) :
    (s.goto t).input = s.input := rfl
@[simp] theorem State.goto_log (s : State) (t : Option TrapState) : (s.goto t).log = s.log := rfl
@[simp] theorem State.goto_trace (s : State) (t : Option TrapState) :
    (s.goto t).trace = s.trace := rfl
@[simp] theorem State.goto_diag (s : State) (t : Option TrapState) : (s.goto t).diag = s.diag := rfl

@[simp] theorem State.trapLink_cfg (s : State) : (s.trapLink).cfg = s.cfg := rfl
@[simp] theorem State.trapLink_regs (s : State) :
    (s.trapLink).regs = Regs.set s.regs .r7 (if s.cfg.trapLinksR7 then s.pc else s.reg .r7) := rfl
@[simp] theorem State.trapLink_pc (s : State) : (s.trapLink).pc = s.pc := rfl
@[simp] theorem State.trapLink_cond (s : State) : (s.trapLink).cond = s.cond := rfl
@[simp] theorem State.trapLink_ir (s : State) : (s.trapLink).ir = s.ir := rfl
@[simp] theorem State.trapLink_mem (s : State) : (s.trapLink).mem = s.mem := rfl
@[simp] theorem State.trapLink_status (s : State) : (s.trapLink).status = s.status := rfl
@[simp] theorem State.trapLink_micro (s : State) : (s.trapLink).micro = s.micro := rfl
@[simp] theorem State.trapLink_input (s : State) : (s.trapLink).input = s.input := rfl
@[simp] theorem State.trapLink_log (s : State) : (s.trapLink).log = s.log := rfl
@[simp] theorem State.trapLink_trace (s : State) : (s.trapLink).trace = s.trace := rfl
@[simp] theorem State.trapLink_diag (s : State) : (s.trapLink).diag = s.diag := rfl

@[simp] theorem State.traceEmit_cfg (s : State) : (s.traceEmit).cfg = s.cfg := rfl
@[simp] theorem State.traceEmit_regs (s : State) : (s.traceEmit).regs = s.regs := rfl
@[simp] theorem State.traceEmit_pc (s : State) : (s.traceEmit).pc = s.pc := rfl
@[simp] theorem State.traceEmit_cond (s : State) : (s.traceEmit).cond = s.cond := rfl
@[simp] theorem State.traceEmit_ir (s : State) : (s.traceEmit).ir = s.ir := rfl
@[simp] theorem State.traceEmit_mem (s : State) : (s.traceEmit).mem = s.mem := rfl
@[simp] theorem State.traceEmit_status (s : State) : (s.traceEmit).status = s.status := rfl
@[simp] theorem State.traceEmit_micro (s : State) : (s.traceEmit).micro = s.micro := rfl
@[simp] theorem State.traceEmit_input (s : State) : (s.traceEmit).input = s.input := rfl
@[simp] theorem State.traceEmit_log (s : State) : (s.traceEmit).log = s.log := rfl
@[simp] theorem State.traceEmit_trace (s : State) :
    (s.traceEmit).trace = if s.cfg.trace then s.trace ++ [Opcode.ofBits (field s.ir 12 4)] else s.trace := rfl
@[simp] theorem State.traceEmit_diag (s : State) : (s.traceEmit).diag = s.diag := rfl

/-! ## The register file -/

@[simp] theorem Regs.get_set_self (rs : Regs) (r : Reg) (v : Word) :
    Regs.get (Regs.set rs r v) r = v := by
  cases r <;> rfl

theorem Regs.get_set_other (rs : Regs) {r q : Reg} (v : Word) (h : q ≠ r) :
    Regs.get (Regs.set rs r v) q = Regs.get rs q := by
  cases r <;> cases q <;> first | rfl | exact absurd rfl h

theorem Regs.ext_get {rs qs : Regs} (h : ∀ r, Regs.get rs r = Regs.get qs r) : rs = qs := by
  have := h .r0; have := h .r1; have := h .r2; have := h .r3
  have := h .r4; have := h .r5; have := h .r6; have := h .r7
  cases rs; cases qs
  simp_all [Regs.get]

@[simp] theorem State.reg_setReg_self (s : State) (r : Reg) (v : Word) :
    (s.setReg r v).reg r = v := Regs.get_set_self s.regs r v

theorem State.reg_setReg_other (s : State) {r q : Reg} (v : Word) (h : q ≠ r) :
    (s.setReg r v).reg q = s.reg q := Regs.get_set_other s.regs v h

/-- A state's registers are read from `regs` alone. -/
theorem State.reg_congr {s t : State} (h : t.regs = s.regs) (r : Reg) : t.reg r = s.reg r := by
  simp only [State.reg, h]

/-- A state's memory is read from `mem` alone. -/
theorem State.memPeek_congr {s t : State} (h : t.mem = s.mem) (a : Word) :
    t.memPeek a = s.memPeek a := by
  simp only [State.memPeek, h]

@[simp] theorem flagOfCode_flagCode (f : Flag) : flagOfCode (flagCode f) = some f := by
  cases f <;> rfl

theorem flagCode_of_flagOfCode {w : Word} {f : Flag} (h : flagOfCode w = some f) : flagCode f = w := by
  unfold flagOfCode at h
  split at h
  · next hw => cases h; exact hw.symm
  · split at h
    · next hw => cases h; exact hw.symm
    · split at h
      · next hw => cases h; exact hw.symm
      · cases h

/-- The indexed set of the register file (10_state.md R15): the register named reads as the word, the
other nine as before, and nothing but the register file changed. -/
theorem State.setRegById_spec {s t : State} {i : RegId} {v : Word} (h : s.setRegById i v = some t) :
    t.regById i = v ∧ (∀ j, j ≠ i → t.regById j = s.regById j) ∧
      t = { s with regs := t.regs, pc := t.pc, cond := t.cond } := by
  cases i with
  | gpr r =>
    cases h
    refine ⟨Regs.get_set_self _ _ _, fun j hj => ?_, rfl⟩
    cases j with
    | gpr q => exact Regs.get_set_other _ _ (fun e => hj (by rw [e]))
    | pc => rfl
    | cond => rfl
  | pc =>
    cases h
    refine ⟨rfl, fun j hj => ?_, rfl⟩
    cases j with
    | gpr q => rfl
    | pc => exact absurd rfl hj
    | cond => rfl
  | cond =>
    obtain ⟨f, hf, rfl⟩ := Option.map_eq_some_iff.1 h
    refine ⟨flagCode_of_flagOfCode hf, fun j hj => ?_, rfl⟩
    cases j with
    | gpr q => rfl
    | pc => rfl
    | cond => exact absurd rfl hj

/-- The indexed set takes every word for R0..R7 and PC, and every value of COND. -/
theorem State.setRegById_some (s : State) (v : Word) (r : Reg) (f : Flag) :
    s.setRegById (.gpr r) v = some (s.setReg r v) ∧ s.setRegById .pc v = some (s.setPC v) ∧
      s.setRegById .cond (flagCode f) = some (s.setCond f) :=
  ⟨rfl, rfl, by simp [State.setRegById]⟩

/-! ## What `R[DR] <- v; UpdateFlags(R[DR])` leaves -/

theorem State.writeDest_eq (s : State) (dr : Reg) (v : Word) :
    s.writeDest dr v = { s with regs := Regs.set s.regs dr v, cond := flagOf v } := by
  simp only [State.writeDest, State.reg_setReg_self]
  rfl

@[simp] theorem State.writeDest_reg_self (s : State) (dr : Reg) (v : Word) :
    (s.writeDest dr v).reg dr = v := by
  rw [State.writeDest_eq]; exact Regs.get_set_self s.regs dr v

theorem State.writeDest_reg_other (s : State) {dr q : Reg} (v : Word) (h : q ≠ dr) :
    (s.writeDest dr v).reg q = s.reg q := by
  rw [State.writeDest_eq]; exact Regs.get_set_other s.regs v h

@[simp] theorem State.writeDest_cond (s : State) (dr : Reg) (v : Word) :
    (s.writeDest dr v).cond = flagOf v := by
  rw [State.writeDest_eq]

/-! ## What a trap's link leaves (44_trap.md R93) -/

theorem State.trapLink_reg_other (s : State) {q : Reg} (h : q ≠ .r7) :
    s.trapLink.reg q = s.reg q := s.reg_setReg_other _ h

theorem State.trapLink_reg_r7 (s : State) :
    s.trapLink.reg .r7 = if s.cfg.trapLinksR7 then s.pc else s.reg .r7 := s.reg_setReg_self _ _

theorem Regs.set_get_self (rs : Regs) (r : Reg) : Regs.set rs r (Regs.get rs r) = rs := by
  cases r <;> rfl

/-- Without the link the state is as it was. -/
theorem State.trapLink_of_unlinked (s : State) (h : s.cfg.trapLinksR7 = false) : s.trapLink = s := by
  simp only [State.trapLink, h, Bool.false_eq_true, if_false, State.setReg, State.reg,
    Regs.set_get_self]

/-! ## What a poll and a MemRead leave (20_memory.md R39) -/

/-- A poll changes memory, the host's side of the console and the log, and nothing else. -/
theorem State.poll_frame (s : State) :
    s.poll = { s with mem := s.poll.mem, input := s.poll.input, log := s.poll.log } := by
  unfold State.poll
  split <;> rfl

theorem State.afterRead_frame (s : State) (a : Word) :
    s.afterRead a = { s with mem := (s.afterRead a).mem, input := (s.afterRead a).input,
                             log := (s.afterRead a).log } := by
  unfold State.afterRead
  split
  · exact s.poll_frame
  · rfl

@[simp] theorem State.poll_cfg (s : State) : s.poll.cfg = s.cfg := by
  rw [s.poll_frame]

@[simp] theorem State.afterRead_cfg (s : State) (a : Word) : (s.afterRead a).cfg = s.cfg := by
  rw [s.afterRead_frame]

@[simp] theorem State.poll_regs (s : State) : s.poll.regs = s.regs := by
  rw [s.poll_frame]

@[simp] theorem State.afterRead_regs (s : State) (a : Word) : (s.afterRead a).regs = s.regs := by
  rw [s.afterRead_frame]

@[simp] theorem State.poll_pc (s : State) : s.poll.pc = s.pc := by
  rw [s.poll_frame]

@[simp] theorem State.afterRead_pc (s : State) (a : Word) : (s.afterRead a).pc = s.pc := by
  rw [s.afterRead_frame]

@[simp] theorem State.poll_cond (s : State) : s.poll.cond = s.cond := by
  rw [s.poll_frame]

@[simp] theorem State.afterRead_cond (s : State) (a : Word) : (s.afterRead a).cond = s.cond := by
  rw [s.afterRead_frame]

@[simp] theorem State.poll_ir (s : State) : s.poll.ir = s.ir := by
  rw [s.poll_frame]

@[simp] theorem State.afterRead_ir (s : State) (a : Word) : (s.afterRead a).ir = s.ir := by
  rw [s.afterRead_frame]

@[simp] theorem State.poll_status (s : State) : s.poll.status = s.status := by
  rw [s.poll_frame]

@[simp] theorem State.afterRead_status (s : State) (a : Word) : (s.afterRead a).status = s.status := by
  rw [s.afterRead_frame]

@[simp] theorem State.poll_micro (s : State) : s.poll.micro = s.micro := by
  rw [s.poll_frame]

@[simp] theorem State.afterRead_micro (s : State) (a : Word) : (s.afterRead a).micro = s.micro := by
  rw [s.afterRead_frame]

@[simp] theorem State.poll_trace (s : State) : s.poll.trace = s.trace := by
  rw [s.poll_frame]

@[simp] theorem State.afterRead_trace (s : State) (a : Word) : (s.afterRead a).trace = s.trace := by
  rw [s.afterRead_frame]

@[simp] theorem State.poll_diag (s : State) : s.poll.diag = s.diag := by
  rw [s.poll_frame]

@[simp] theorem State.afterRead_diag (s : State) (a : Word) : (s.afterRead a).diag = s.diag := by
  rw [s.afterRead_frame]

@[simp] theorem State.afterRead_reg (s : State) (a : Word) (r : Reg) :
    (s.afterRead a).reg r = s.reg r := State.reg_congr (s.afterRead_regs a) r

/-- A MemRead of any other address than KBSR has no side effect. -/
theorem State.afterRead_plain {s : State} {a : Word} (h : a ≠ s.cfg.kbsrAddr) :
    s.afterRead a = s := if_neg h

theorem State.afterRead_kbsr (s : State) : s.afterRead s.cfg.kbsrAddr = s.poll := if_pos rfl

theorem State.memRead_plain {s : State} {a : Word} (h : a ≠ s.cfg.kbsrAddr) :
    s.memRead a = s.memPeek a := by
  simp only [State.memRead, State.afterRead_plain h]

/-- Operations that write no memory leave every word. -/
theorem State.memPeek_of_mem (s : State) (m : Memory) (a : Word) (h : s.mem = m) :
    s.memPeek a = Memory.read m a.toNat := by
  rw [State.memPeek, h]

end Sys2Proof.Machine
end

