-- ==== Sys2Proof/Laws/Memory.lean ====
section
/-! SUPPORT. The laws of memory: a read after a write, the canonical form, and that every memory
operation keeps it (20_memory.md R39 to R41, R51). -/

namespace Sys2Proof.Machine

/-! ## Read after write -/

theorem Memory.read_erase_self (m : Memory) (a : Nat) : Memory.read (Memory.erase m a) a = 0#16 := by
  induction m with
  | nil => rfl
  | cons c m ih =>
    by_cases h : a = c.1
    · simp only [Memory.erase, h, if_true] at ih ⊢; exact ih
    · simp only [Memory.erase, h, if_false, Memory.read]; exact ih

theorem Memory.read_erase_other (m : Memory) {a b : Nat} (hab : b ≠ a) :
    Memory.read (Memory.erase m a) b = Memory.read m b := by
  induction m with
  | nil => rfl
  | cons c m ih =>
    by_cases h : a = c.1
    · simp only [Memory.erase, h, if_true, Memory.read] at ih ⊢
      rw [if_neg (fun e => hab (e.trans h.symm))]
      subst h; exact ih
    · simp only [Memory.erase, h, if_false, Memory.read, ih]

theorem Memory.read_insert_self (m : Memory) (a : Nat) (v : Word) :
    Memory.read (Memory.insert (Memory.erase m a) a v) a = v := by
  induction m with
  | nil => simp [Memory.erase, Memory.insert, Memory.read]
  | cons c m ih =>
    by_cases h : a = c.1
    · simp only [Memory.erase, h, if_true] at ih ⊢; exact ih
    · simp only [Memory.erase, h, if_false, Memory.insert]
      split
      · simp [Memory.read]
      · simp only [Memory.read, h, if_false]; exact ih

theorem Memory.read_insert_other (m : Memory) {a b : Nat} (v : Word) (hab : b ≠ a) :
    Memory.read (Memory.insert m a v) b = Memory.read m b := by
  induction m with
  | nil => simp [Memory.insert, Memory.read, hab]
  | cons c m ih =>
    simp only [Memory.insert]
    split
    · simp [Memory.read, hab]
    · simp only [Memory.read, ih]

theorem Memory.read_write_self (m : Memory) (a : Nat) (v : Word) :
    Memory.read (Memory.write m a v) a = v := by
  unfold Memory.write
  split
  · next h => rw [h]; exact Memory.read_erase_self m a
  · exact Memory.read_insert_self m a v

theorem Memory.read_write_other (m : Memory) {a b : Nat} (v : Word) (hab : b ≠ a) :
    Memory.read (Memory.write m a v) b = Memory.read m b := by
  unfold Memory.write
  split
  · exact Memory.read_erase_other m hab
  · rw [Memory.read_insert_other _ v hab, Memory.read_erase_other m hab]

theorem State.memPeek_memWrite_self (s : State) (a v : Word) : (s.memWrite a v).memPeek a = v :=
  Memory.read_write_self s.mem a.toNat v

theorem State.memPeek_memWrite_other (s : State) {a b : Word} (v : Word) (h : b ≠ a) :
    (s.memWrite a v).memPeek b = s.memPeek b :=
  Memory.read_write_other s.mem v (fun e => h (BitVec.eq_of_toNat_eq e))

/-! ## The canonical form -/

/-- The lower bound `wfAbove` starts from. -/
def aboveBound (lo : Option Nat) (b : Nat) : Prop := ∀ l, lo = some l → l < b

theorem Memory.wfAbove_cons {b : Nat} {w : Word} {m : Memory} {lo : Option Nat} :
    Memory.wfAbove ((b, w) :: m) lo = true ↔
      aboveBound lo b ∧ b < 65536 ∧ w ≠ 0#16 ∧ Memory.wfAbove m (some b) = true := by
  cases lo <;> simp [Memory.wfAbove, aboveBound, and_assoc]

theorem Memory.wfAbove_weaken {m : Memory} {lo lo' : Option Nat}
    (h : Memory.wfAbove m lo = true) (hb : ∀ b, aboveBound lo b → aboveBound lo' b) :
    Memory.wfAbove m lo' = true := by
  cases m with
  | nil => rfl
  | cons c m =>
    obtain ⟨b, w⟩ := c
    rw [Memory.wfAbove_cons] at h ⊢
    exact ⟨hb b h.1, h.2⟩

theorem Memory.wfAbove_erase {m : Memory} {lo : Option Nat} (a : Nat)
    (h : Memory.wfAbove m lo = true) : Memory.wfAbove (Memory.erase m a) lo = true := by
  induction m generalizing lo with
  | nil => rfl
  | cons c m ih =>
    obtain ⟨b, w⟩ := c
    rw [Memory.wfAbove_cons] at h
    by_cases hab : a = b
    · simp only [Memory.erase, hab, if_true]
      subst hab
      refine ih (Memory.wfAbove_weaken h.2.2.2 ?_)
      intro d hd l hl
      exact Nat.lt_trans (h.1 l hl) (hd a rfl)
    · simp only [Memory.erase, hab, if_false]
      rw [Memory.wfAbove_cons]
      exact ⟨h.1, h.2.1, h.2.2.1, ih h.2.2.2⟩

/-- An erased address is not listed. -/
theorem Memory.erase_not_listed (m : Memory) (a : Nat) : ∀ c ∈ Memory.erase m a, c.1 ≠ a := by
  induction m with
  | nil => intro c hc; cases hc
  | cons c m ih =>
    by_cases h : a = c.1
    · simp only [Memory.erase, h, if_true] at ih ⊢; exact ih
    · simp only [Memory.erase, h, if_false]
      intro d hd
      rcases List.mem_cons.1 hd with rfl | hd
      · exact fun e => h e.symm
      · exact ih d hd

theorem Memory.wfAbove_insert {m : Memory} {lo : Option Nat} {a : Nat} {v : Word}
    (h : Memory.wfAbove m lo = true) (hlo : aboveBound lo a) (ha : a < 65536) (hv : v ≠ 0#16)
    (hn : ∀ c ∈ m, c.1 ≠ a) : Memory.wfAbove (Memory.insert m a v) lo = true := by
  induction m generalizing lo with
  | nil => simp only [Memory.insert]; rw [Memory.wfAbove_cons]; exact ⟨hlo, ha, hv, rfl⟩
  | cons c m ih =>
    obtain ⟨b, w⟩ := c
    rw [Memory.wfAbove_cons] at h
    simp only [Memory.insert]
    split
    · next hab =>
      rw [Memory.wfAbove_cons, Memory.wfAbove_cons]
      refine ⟨hlo, ha, hv, ?_, h.2⟩
      intro l hl; cases hl; exact hab
    · next hab =>
      rw [Memory.wfAbove_cons]
      have hne : b ≠ a := hn (b, w) (List.mem_cons_self ..)
      refine ⟨h.1, h.2.1, h.2.2.1, ih h.2.2.2 ?_ (fun c hc => hn c (List.mem_cons_of_mem _ hc))⟩
      intro l hl; cases hl; omega

/-- Every write keeps the canonical form. -/
theorem Memory.wf_write {m : Memory} {a : Nat} (v : Word) (h : Memory.wf m = true) (ha : a < 65536) :
    Memory.wf (Memory.write m a v) = true := by
  unfold Memory.write
  split
  · exact Memory.wfAbove_erase a h
  · next hv =>
    exact Memory.wfAbove_insert (Memory.wfAbove_erase a h) (fun l hl => by cases hl) ha hv
      (Memory.erase_not_listed m a)

theorem State.memWrite_wf {s : State} (a v : Word) (h : Memory.wf s.mem = true) :
    Memory.wf (s.memWrite a v).mem = true :=
  Memory.wf_write v h a.isLt

theorem State.poll_wf {s : State} (h : Memory.wf s.mem = true) : Memory.wf s.poll.mem = true := by
  unfold State.poll
  split
  · exact State.memWrite_wf _ _ (State.memWrite_wf _ _ h)
  · exact State.memWrite_wf _ _ h
  · exact State.memWrite_wf _ _ h

theorem State.afterRead_wf {s : State} (a : Word) (h : Memory.wf s.mem = true) :
    Memory.wf (s.afterRead a).mem = true := by
  unfold State.afterRead
  split
  · exact State.poll_wf h
  · exact h

theorem writeWords_wf {m : Memory} {base : Nat} (ws : List Word) (h : Memory.wf m = true)
    (hb : base + ws.length ≤ 65536) : Memory.wf (writeWords m base ws) = true := by
  induction ws generalizing m base with
  | nil => exact h
  | cons w ws ih =>
    simp only [List.length_cons] at hb
    exact ih (Memory.wf_write w h (by omega)) (by omega)

end Sys2Proof.Machine
end

