-- ==== Sys2Proof/Laws/Trap.lean ====
section
/-! SUPPORT. What the trap handler can do: one lemma per state, the induction over its run, what a run
leaves unchanged, and that a run comes to rest (44_trap.md R92, R94, R97, R99, R102). -/

namespace Sys2Proof.Machine

/-! ## Running it -/

theorem runTrap_idle {n : Nat} {s : State} (h : s.micro = none) : runTrap n s = s := by
  cases n <;> simp [runTrap, h]

theorem runTrap_held {n : Nat} {s : State} {t : TrapState} (h : s.micro = some t)
    (hh : holds t s.input = true) : runTrap n s = s := by
  cases n <;> simp [runTrap, h, hh]

theorem runTrap_step {n : Nat} {s : State} {t : TrapState} (h : s.micro = some t)
    (hh : holds t s.input = false) : runTrap (n + 1) s = runTrap n (microStep t s) := by
  simp [runTrap, h, hh]

/-- The induction over a run of the handler: what every one of its states keeps, the run keeps. -/
theorem runTrap_induct {P : State → Prop}
    (hstep : ∀ s t, s.micro = some t → holds t s.input = false → P s → P (microStep t s))
    (n : Nat) (s : State) (h : P s) : P (runTrap n s) := by
  induction n generalizing s with
  | zero => exact h
  | succ n ih =>
    cases hm : s.micro with
    | none => rw [runTrap_idle hm]; exact h
    | some t =>
      cases hh : holds t s.input with
      | true => rw [runTrap_held hm hh]; exact h
      | false => rw [runTrap_step hm hh]; exact ih _ (hstep s t hm hh h)

/-! ## What one state of the handler leaves (R92) -/

theorem State.readChar_eq (s : State) (go : Byte → TrapState) :
    s.readChar go = s ∨ ∃ c rest, nextKey s.input = some (c, rest) ∧
      s.readChar go = { s with input := rest, log := s.log ++ [.readChar c], micro := some (go c) } := by
  unfold State.readChar
  split
  · exact .inl rfl
  · next c rest h => exact .inr ⟨c, rest, h, rfl⟩

theorem State.writeText_eq (s : State) (text : List Byte) (k : Nat) (next : Nat → TrapState)
    (done : TrapState) :
    (text[k]? = none ∧ s.writeText text k next done = { s with micro := some done }) ∨
    ∃ b, text[k]? = some b ∧ s.writeText text k next done =
      { s with log := s.log ++ [.writeChar b], micro := some (next (k + 1)) } := by
  unfold State.writeText
  split
  · next b h => exact .inr ⟨b, h, rfl⟩
  · next h => exact .inl ⟨h, rfl⟩

/-- A state of the handler changes registers, COND, the status, its own micro-state and the console
only. -/
theorem microStep_frame (t : TrapState) (s : State) :
    microStep t s = { s with regs := (microStep t s).regs, cond := (microStep t s).cond,
                             status := (microStep t s).status, micro := (microStep t s).micro,
                             input := (microStep t s).input, log := (microStep t s).log } := by
  cases t <;> simp only [microStep] <;>
    first
      | rfl
      | (rcases s.readChar_eq _ with h | ⟨c, rest, -, h⟩ <;> rw [h])
      | (rcases s.writeText_eq _ _ _ _ with ⟨-, h⟩ | ⟨b, -, h⟩ <;> rw [h])
      | (split <;> rfl)

theorem runTrap_frame (n : Nat) (s : State) :
    runTrap n s = { s with regs := (runTrap n s).regs, cond := (runTrap n s).cond,
                           status := (runTrap n s).status, micro := (runTrap n s).micro,
                           input := (runTrap n s).input, log := (runTrap n s).log } := by
  refine runTrap_induct (P := fun u =>
    u = { s with regs := u.regs, cond := u.cond, status := u.status, micro := u.micro, input := u.input, log := u.log })
    ?_ n s rfl
  intro u t _ _ hu
  rw [microStep_frame t u]
  generalize microStep t u = v
  rw [hu]

@[simp] theorem microStep_cfg (t : TrapState) (s : State) : (microStep t s).cfg = s.cfg := by
  rw [microStep_frame]

@[simp] theorem microStep_mem (t : TrapState) (s : State) : (microStep t s).mem = s.mem := by
  rw [microStep_frame]

@[simp] theorem microStep_memPeek (t : TrapState) (s : State) (a : Word) :
    (microStep t s).memPeek a = s.memPeek a := State.memPeek_congr (microStep_mem t s) a

@[simp] theorem runTrap_cfg (n : Nat) (s : State) : (runTrap n s).cfg = s.cfg := by rw [runTrap_frame]
@[simp] theorem runTrap_pc (n : Nat) (s : State) : (runTrap n s).pc = s.pc := by rw [runTrap_frame]
@[simp] theorem runTrap_ir (n : Nat) (s : State) : (runTrap n s).ir = s.ir := by rw [runTrap_frame]
@[simp] theorem runTrap_mem (n : Nat) (s : State) : (runTrap n s).mem = s.mem := by rw [runTrap_frame]
@[simp] theorem runTrap_trace (n : Nat) (s : State) : (runTrap n s).trace = s.trace := by
  rw [runTrap_frame]
@[simp] theorem runTrap_diag (n : Nat) (s : State) : (runTrap n s).diag = s.diag := by
  rw [runTrap_frame]
@[simp] theorem runTrap_memPeek (n : Nat) (s : State) (a : Word) :
    (runTrap n s).memPeek a = s.memPeek a := State.memPeek_congr (runTrap_mem n s) a

/-- The handler writes no general register but R0. -/
theorem microStep_reg_other (t : TrapState) (s : State) {r : Reg} (h : r ≠ .r0) :
    (microStep t s).reg r = s.reg r := by
  cases t <;> simp only [microStep] <;>
    first
      | rfl
      | (rcases s.readChar_eq _ with e | ⟨c, rest, -, e⟩ <;> rw [e] <;> rfl)
      | (rcases s.writeText_eq _ _ _ _ with ⟨-, e⟩ | ⟨b, -, e⟩ <;> rw [e] <;> rfl)
      | (split <;> rfl)
      | exact State.writeDest_reg_other s _ h

theorem runTrap_reg_other (n : Nat) (s : State) {r : Reg} (h : r ≠ .r0) :
    (runTrap n s).reg r = s.reg r :=
  runTrap_induct (P := fun u => u.reg r = s.reg r)
    (fun u t _ _ hu => (microStep_reg_other t u h).trans hu) n s rfl

/-- The console log only grows: what was issued stays issued. -/
theorem microStep_log (t : TrapState) (s : State) : s.log <+: (microStep t s).log := by
  cases t <;> simp only [microStep] <;>
    first
      | exact List.prefix_append _ _
      | exact List.prefix_rfl
      | (rcases s.readChar_eq _ with e | ⟨c, rest, -, e⟩ <;> rw [e] <;> exact List.prefix_append _ _)
      | (rcases s.writeText_eq _ _ _ _ with ⟨-, e⟩ | ⟨b, -, e⟩ <;> rw [e] <;>
          exact List.prefix_append _ _)
      | (split <;> first | exact List.prefix_append _ _ | exact List.prefix_rfl)

theorem runTrap_log (n : Nat) (s : State) : s.log <+: (runTrap n s).log :=
  runTrap_induct (P := fun u => s.log <+: u.log)
    (fun u t _ _ hu => hu.trans (microStep_log t u)) n s List.prefix_rfl

/-! ## Coming to rest -/

open Classical in
/-- How many words a scan from `a` passes before a zero word; 0 where memory holds none. -/
noncomputable def scanLength (s : State) (a : Word) : Nat :=
  if h : ∃ k : Nat, s.memPeek (a + BitVec.ofNat 16 k) = 0#16 then Nat.find h else 0

theorem add_ofNat_succ (a : Word) (k : Nat) :
    a + 1#16 + BitVec.ofNat 16 k = a + BitVec.ofNat 16 (k + 1) := by
  rw [BitVec.add_assoc]
  congr 1
  apply BitVec.eq_of_toNat_eq
  simp only [BitVec.toNat_add, BitVec.toNat_ofNat]
  omega

theorem scanLength_zero {s : State} {a : Word} (h : s.memPeek a = 0#16) : scanLength s a = 0 := by
  classical
  unfold scanLength
  split
  · next hk =>
    apply (Nat.find_eq_zero hk).2
    simpa using h
  · rfl

theorem exists_offset (a b : Word) : ∃ k : Nat, k < 65536 ∧ a + BitVec.ofNat 16 k = b := by
  refine ⟨(b - a).toNat, (b - a).isLt, ?_⟩
  rw [BitVec.ofNat_toNat, BitVec.setWidth_eq, BitVec.add_comm]
  exact BitVec.sub_add_cancel b a

theorem scanLength_succ {s : State} {a : Word} (hz : ¬ s.noZeroWord) (h : s.memPeek a ≠ 0#16) :
    scanLength s a = scanLength s (a + 1#16) + 1 := by
  classical
  have hz : ∃ b, s.memPeek b = 0#16 := by
    by_contra hc
    exact hz (fun b hb => hc ⟨b, hb⟩)
  obtain ⟨b, hb⟩ := hz
  have h1 : ∃ k : Nat, s.memPeek (a + BitVec.ofNat 16 k) = 0#16 := by
    obtain ⟨k, -, hk⟩ := exists_offset a b
    exact ⟨k, by rw [hk]; exact hb⟩
  have h2 : ∃ k : Nat, s.memPeek (a + 1#16 + BitVec.ofNat 16 k) = 0#16 := by
    obtain ⟨k, -, hk⟩ := exists_offset (a + 1#16) b
    exact ⟨k, by rw [hk]; exact hb⟩
  unfold scanLength
  rw [dif_pos h1, dif_pos h2]
  apply (Nat.find_eq_iff h1).2
  refine ⟨?_, ?_⟩
  · rw [← add_ofNat_succ]; exact Nat.find_spec h2
  · intro k hk
    cases k with
    | zero => simpa using h
    | succ k => rw [← add_ofNat_succ]; exact Nat.find_min h2 (by omega)

theorem scanLength_le (s : State) (a : Word) : scanLength s a ≤ 65535 := by
  classical
  unfold scanLength
  split
  · next h =>
    obtain ⟨j, hj⟩ := h
    obtain ⟨k, hk, e⟩ := exists_offset a (a + BitVec.ofNat 16 j)
    have : Nat.find ⟨j, hj⟩ ≤ k :=
      Nat.find_min' (p := fun k => s.memPeek (a + BitVec.ofNat 16 k) = 0#16) ⟨j, hj⟩
        (by rw [e]; exact hj)
    omega
  · omega

theorem scanLength_congr {s u : State} (h : u.mem = s.mem) (a : Word) :
    scanLength u a = scanLength s a := by
  have e : u.memPeek = s.memPeek := funext (State.memPeek_congr h)
  unfold scanLength
  rw [e]

/-- The states left before the handler is idle, at most, where memory holds a zero word. -/
noncomputable def statesLeft (s : State) : Nat :=
  match s.micro with
  | none => 0
  | some .gRead => 2
  | some (.gDone _) => 1
  | some .oWrite => 2
  | some .oFlush => 1
  | some (.pScan a) => scanLength s a + 2
  | some .pFlush => 1
  | some (.iPrompt k) => s.cfg.inPrompt.length - k + 6
  | some .iFlush1 => 5
  | some .iRead => 4
  | some (.iEcho _) => 3
  | some (.iFlush2 _) => 2
  | some (.iDone _) => 1
  | some (.qScan a) => 2 * scanLength s a + 2
  | some (.qHigh a _) => 2 * scanLength s (a + 1#16) + 3
  | some .qFlush => 1
  | some (.hNotice k) => s.cfg.haltNotice.length - k + 2
  | some .hFlush => 1

/-- A state of the handler that scans memory (`State.scanning`, by its constructor). -/
def isScan : Option TrapState → Prop
  | some (.pScan _) => True
  | some (.qScan _) => True
  | some (.qHigh _ _) => True
  | _ => False

theorem statesLeft_le_fuel (s : State) : statesLeft s ≤ trapFuel s := by
  unfold statesLeft trapFuel
  split <;> try omega
  · next a _ => have := scanLength_le s a; omega
  · next a _ => have := scanLength_le s a; omega
  · next a _ _ => have := scanLength_le s (a + 1#16); omega

theorem nextKey_of_not_held {t : TrapState} {input : List HostInput} (h : holds t input = false)
    (ht : t = .gRead ∨ t = .iRead) : ∃ c rest, nextKey input = some (c, rest) := by
  rcases ht with rfl | rfl <;>
  · cases hk : nextKey input with
    | none => simp [holds, hk] at h
    | some p => exact ⟨p.1, p.2, rfl⟩

theorem State.readChar_some {s : State} {c : Byte} {rest : List HostInput}
    (h : nextKey s.input = some (c, rest)) (go : Byte → TrapState) :
    s.readChar go =
      { s with input := rest, log := s.log ++ [.readChar c], micro := some (go c) } := by
  unfold State.readChar
  rw [h]
  rfl

/-- Every state that does not hold brings the handler nearer to idle, unless it scans a memory with no
zero word. -/
theorem statesLeft_step {s : State} {t : TrapState} (hm : s.micro = some t)
    (hh : holds t s.input = false) (hz : isScan s.micro → ¬ s.noZeroWord) :
    statesLeft (microStep t s) < statesLeft s := by
  have hzt : isScan (some t) → ¬ s.noZeroWord := by rw [← hm]; exact hz
  have hs : statesLeft s = statesLeft { s with micro := some t } := by
    rw [← hm]
  rw [hs]
  cases t with
  | gRead =>
    obtain ⟨c, rest, hk⟩ := nextKey_of_not_held hh (.inl rfl)
    simp only [microStep, State.readChar_some hk, statesLeft]; omega
  | iRead =>
    obtain ⟨c, rest, hk⟩ := nextKey_of_not_held hh (.inr rfl)
    simp only [microStep, State.readChar_some hk, statesLeft]; omega
  | iPrompt k =>
    rcases s.writeText_eq s.cfg.inPrompt k .iPrompt .iFlush1 with ⟨hn, e⟩ | ⟨b, hb, e⟩
    · simp only [microStep, e, statesLeft]; omega
    · have := (List.getElem?_eq_some_iff.1 hb).1
      simp only [microStep, e, statesLeft]; omega
  | hNotice k =>
    rcases s.writeText_eq s.cfg.haltNotice k .hNotice .hFlush with ⟨hn, e⟩ | ⟨b, hb, e⟩
    · simp only [microStep, e, statesLeft]; omega
    · have := (List.getElem?_eq_some_iff.1 hb).1
      simp only [microStep, e, statesLeft]; omega
  | pScan a =>
    have hz := hzt trivial
    simp only [microStep]
    split
    · simp only [statesLeft, State.goto_micro]; omega
    · next h =>
      simp only [statesLeft, State.goto_micro]
      have h1 := scanLength_succ hz h
      have h2 : scanLength ((s.writeChar (lowByte (s.memPeek a))).goto (some (.pScan (a + 1#16)))) (a + 1#16)
          = scanLength s (a + 1#16) := scanLength_congr rfl _
      have h3 : scanLength { s with micro := some (.pScan a) } a = scanLength s a := scanLength_congr rfl _
      omega
  | qScan a =>
    have hz := hzt trivial
    simp only [microStep]
    split
    · simp only [statesLeft, State.goto_micro]; omega
    · next h =>
      simp only [statesLeft, State.goto_micro]
      have h1 := scanLength_succ hz h
      have h2 : scanLength ((s.writeChar (lowByte (s.memPeek a))).goto (some (.qHigh a (s.memPeek a))))
          (a + 1#16) = scanLength s (a + 1#16) := scanLength_congr rfl _
      have h3 : scanLength { s with micro := some (.qScan a) } a = scanLength s a := scanLength_congr rfl _
      omega
  | qHigh a w =>
    simp only [microStep, statesLeft, State.goto_micro]
    have h2 : scanLength ((if highByte w = 0#8 then s else s.writeChar (highByte w)).goto
        (some (.qScan (a + 1#16)))) (a + 1#16) = scanLength s (a + 1#16) :=
      scanLength_congr (by split <;> rfl) _
    have h3 : scanLength { s with micro := some (.qHigh a w) } (a + 1#16) = scanLength s (a + 1#16) :=
      scanLength_congr rfl _
    omega
  | gDone c => simp [microStep, State.charToR0, statesLeft]
  | oWrite => simp [microStep, statesLeft]
  | oFlush => simp [microStep, statesLeft]
  | pFlush => simp [microStep, statesLeft]
  | iFlush1 => simp [microStep, statesLeft]
  | iEcho c => simp [microStep, statesLeft]
  | iFlush2 c => simp [microStep, statesLeft]
  | iDone c => simp [microStep, State.charToR0, statesLeft]
  | qFlush => simp [microStep, statesLeft]
  | hFlush => simp [microStep, statesLeft]

/-- A scan of a memory with no zero word stays a scan. -/
theorem isScan_step {s : State} {t : TrapState} (ht : isScan (some t)) (hz : s.noZeroWord) :
    isScan (microStep t s).micro := by
  cases t <;> simp only [isScan] at ht <;> simp only [microStep]
  · rw [if_neg (hz _)]; trivial
  · rw [if_neg (hz _)]; trivial
  · trivial

theorem isScan_iff (m : Option TrapState) :
    isScan m ↔ ∃ a, m = some (.pScan a) ∨ m = some (.qScan a) ∨ ∃ w, m = some (.qHigh a w) := by
  constructor
  · intro h
    match m, h with
    | some (.pScan a), _ => exact ⟨a, .inl rfl⟩
    | some (.qScan a), _ => exact ⟨a, .inr (.inl rfl)⟩
    | some (.qHigh a w), _ => exact ⟨a, .inr (.inr ⟨w, rfl⟩)⟩
  · rintro ⟨a, rfl | rfl | ⟨w, rfl⟩⟩ <;> trivial

theorem runTrap_isScan {n : Nat} {s : State} (ht : isScan s.micro) (hz : s.noZeroWord) :
    isScan (runTrap n s).micro := by
  refine (runTrap_induct (P := fun u => isScan u.micro ∧ u.noZeroWord) ?_ n s ⟨ht, hz⟩).1
  rintro u t hm - ⟨h1, h2⟩
  refine ⟨isScan_step (hm ▸ h1) h2, fun a => ?_⟩
  rw [microStep_memPeek]; exact h2 a

/-- A run of enough states comes to rest: idle, held, or an endless scan. -/
theorem runTrap_rests (n : Nat) (s : State) (hn : statesLeft s ≤ n) :
    (runTrap n s).micro = none ∨
    (∃ t, (runTrap n s).micro = some t ∧ holds t (runTrap n s).input = true) ∨
    (isScan (runTrap n s).micro ∧ s.noZeroWord) := by
  induction n generalizing s with
  | zero =>
    have h0 : statesLeft s = 0 := by omega
    cases hm : s.micro with
    | none => exact .inl hm
    | some t => exfalso; unfold statesLeft at h0; rw [hm] at h0; cases t <;> simp at h0
  | succ n ih =>
    cases hm : s.micro with
    | none => rw [runTrap_idle hm]; exact .inl hm
    | some t =>
      cases hh : holds t s.input with
      | true => rw [runTrap_held hm hh]; exact .inr (.inl ⟨t, hm, hh⟩)
      | false =>
        by_cases hz : isScan s.micro ∧ s.noZeroWord
        · exact .inr (.inr ⟨runTrap_isScan hz.1 hz.2, hz.2⟩)
        · have hlt := statesLeft_step hm hh (fun h1 h2 => hz ⟨h1, h2⟩)
          rw [runTrap_step hm hh]
          rcases ih (microStep t s) (by omega) with h | h | ⟨h1, h2⟩
          · exact .inl h
          · exact .inr (.inl h)
          · refine .inr (.inr ⟨h1, fun a => ?_⟩)
            rw [← microStep_memPeek t s a]; exact h2 a

theorem held_reads {t : TrapState} {input : List HostInput} (h : holds t input = true) :
    (t = .gRead ∨ t = .iRead) ∧ nextKey input = none := by
  cases t <;> simp [holds] at h ⊢ <;> exact h

/-- After the whole fuel of one step, the handler is at rest. -/
theorem runTrap_atRest (s : State) : (runTrap (trapFuel s) s).handlerAtRest := by
  have hmem : ∀ a, (runTrap (trapFuel s) s).memPeek a = s.memPeek a := runTrap_memPeek _ s
  rcases runTrap_rests (trapFuel s) s (statesLeft_le_fuel s) with h | ⟨t, hm, hh⟩ | ⟨h1, h2⟩
  · exact .inl h
  · rcases (held_reads hh).1 with rfl | rfl
    · exact .inr (.inl hm)
    · exact .inr (.inr (.inl hm))
  · refine .inr (.inr (.inr ⟨(isScan_iff _).1 h1, fun a => ?_⟩))
    rw [hmem]; exact h2 a

end Sys2Proof.Machine
end

