-- ==== Sys2Proof/Laws/Routines.lean ====
section
/-! SUPPORT. What a whole run of each trap routine does, given enough fuel (44_trap.md R95 to R100). -/

namespace Sys2Proof.Machine

/-! ## One state at a time -/

/-- Fuel is spent one state at a time: a run from a state that does not hold. -/
theorem runTrap_to {n m : Nat} {s u : State} {t : TrapState} (hn : n = m + 1) (hm : s.micro = some t)
    (hh : holds t s.input = false) (hu : microStep t s = u) : runTrap n s = runTrap m u := by
  subst hn; rw [runTrap_step hm hh, hu]

theorem lowByte_eq (w : Word) : lowByte w = w.setWidth 8 := by
  apply BitVec.eq_of_toNat_eq
  simp [lowByte, BitVec.extractLsb'_toNat]

theorem highByte_eq (w : Word) : highByte w = (w >>> 8).setWidth 8 := by
  apply BitVec.eq_of_toNat_eq
  simp [highByte, BitVec.extractLsb'_toNat]

/-- "Not ready" marks are waited out by a blocking read. -/
theorem nextKey_quiet (n : Nat) (l : List HostInput) : nextKey (List.replicate n .quiet ++ l) = nextKey l := by
  induction n with
  | zero => rfl
  | succ n ih => exact ih

/-! ## Output strings (HALT, IN) -/

/-- The handler in an output string: from position `k` it writes the rest and goes to `done`. -/
theorem runTrap_text {text : List Byte} {next : Nat → TrapState} {done : TrapState}
    {P : State → Prop}
    (hmicro : ∀ (u : State) k, P u → microStep (next k) u = u.writeText text k next done)
    (hheld : ∀ k i, holds (next k) i = false)
    (hP : ∀ (u : State) b k, P u → P ((u.writeChar b).goto (some (next k))))
    (s : State) (hs : P s) (rest : List Byte) (k n : Nat) (hm : s.micro = some (next k))
    (hk : text.drop k = rest) (hn : rest.length + 1 ≤ n) :
    runTrap n s = runTrap (n - (rest.length + 1))
      { s with log := s.log ++ rest.map .writeChar, micro := some done } := by
  induction rest generalizing s k n with
  | nil =>
    have hnone : text[k]? = none := by
      rw [List.getElem?_eq_none_iff]; exact List.drop_eq_nil_iff.1 hk
    refine runTrap_to (m := n - 1) (by simp at hn; omega) hm (hheld k _) ?_
    rw [hmicro s k hs, State.writeText, hnone]
    simp [State.goto]
  | cons b rest ih =>
    have hb : text[k]? = some b := by
      have := congrArg (·[0]?) hk
      simpa using this
    have hd : text.drop (k + 1) = rest := by
      have := congrArg List.tail hk
      simpa using this
    have hu : microStep (next k) s = (s.writeChar b).goto (some (next (k + 1))) := by
      rw [hmicro s k hs, State.writeText, hb]
    simp only [List.length_cons] at hn
    rw [runTrap_to (m := n - 1) (by omega) hm (hheld k _) hu,
      ih _ (hP s b (k + 1) hs) (k + 1) (n - 1) rfl hd (by omega)]
    have : n - 1 - (rest.length + 1) = n - (rest.length + 1 + 1) := by omega
    simp only [List.length_cons, this, List.map_cons]
    congr 1
    simp [State.goto, State.writeChar, State.issue]

/-- HALT's whole run (R100). -/
theorem runTrap_halt {s : State} {n : Nat} (hm : s.micro = some (.hNotice 0))
    (hn : s.cfg.haltNotice.length + 2 ≤ n) :
    runTrap n s = { s with log := s.log ++ s.cfg.haltNotice.map .writeChar ++ [.flush],
                           micro := none, status := .halted .haltTrap } := by
  rw [runTrap_text (P := fun u => u.cfg = s.cfg) (fun u k hu => by rw [← hu]; rfl)
    (fun _ _ => rfl) (fun u b k hu => hu) s rfl s.cfg.haltNotice 0 n hm rfl (by omega)]
  rw [runTrap_to (m := n - (s.cfg.haltNotice.length + 1) - 1) (t := .hFlush) (by omega) rfl rfl rfl]
  exact runTrap_idle rfl

/-- IN's run up to its read (R98). -/
theorem runTrap_prompt {s : State} {n : Nat} (hm : s.micro = some (.iPrompt 0))
    (hn : s.cfg.inPrompt.length + 2 ≤ n) :
    runTrap n s = runTrap (n - (s.cfg.inPrompt.length + 2))
      { s with log := s.log ++ s.cfg.inPrompt.map .writeChar ++ [.flush], micro := some .iRead } := by
  rw [runTrap_text (P := fun u => u.cfg = s.cfg) (fun u k hu => by rw [← hu]; rfl)
    (fun _ _ => rfl) (fun u b k hu => hu) s rfl s.cfg.inPrompt 0 n hm rfl (by omega)]
  exact runTrap_to (t := .iFlush1) (by omega) rfl rfl rfl

/-! ## Console reads (GETC, IN) -/

theorem holds_of_nextKey {input : List HostInput} {p : Byte × List HostInput}
    (h : nextKey input = some p) : holds .gRead input = false ∧ holds .iRead input = false := by
  simp [holds, h]

/-- GETC's whole run from its read, where a character is there (R95). -/
theorem runTrap_getc {s : State} {n : Nat} {c : Byte} {rest : List HostInput}
    (hm : s.micro = some .gRead) (hk : nextKey s.input = some (c, rest)) (hn : 2 ≤ n) :
    runTrap n s = State.charToR0 { s with input := rest, log := s.log ++ [.readChar c] } c := by
  rw [runTrap_to (m := n - 1) (by omega) hm (holds_of_nextKey hk).1 (State.readChar_some hk _),
    runTrap_to (m := n - 2) (t := .gDone c) (by omega) rfl rfl rfl]
  rw [runTrap_idle rfl]
  simp only [microStep, State.charToR0, State.writeDest_eq, State.goto]

/-- IN's whole run from its read, where a character is there (R98). -/
theorem runTrap_in {s : State} {n : Nat} {c : Byte} {rest : List HostInput}
    (hm : s.micro = some .iRead) (hk : nextKey s.input = some (c, rest)) (hn : 4 ≤ n) :
    runTrap n s =
      State.charToR0 { s with input := rest, log := s.log ++ [.readChar c, .writeChar c, .flush] } c := by
  rw [runTrap_to (m := n - 1) (by omega) hm (holds_of_nextKey hk).2 (State.readChar_some hk _),
    runTrap_to (m := n - 2) (t := .iEcho c) (by omega) rfl rfl rfl,
    runTrap_to (m := n - 3) (t := .iFlush2 c) (by omega) rfl rfl rfl,
    runTrap_to (m := n - 4) (t := .iDone c) (by omega) rfl rfl rfl]
  rw [runTrap_idle rfl]
  simp only [microStep, State.charToR0, State.writeDest_eq, State.goto, State.writeChar, State.flush,
    State.issue, List.append_assoc, List.cons_append, List.nil_append]

/-! ## Scans (PUTS, PUTSP) -/

theorem State.stringAt_tail {s : State} {a w : Word} {ws : List Word} (h : s.stringAt a (w :: ws)) :
    s.memPeek a = w ∧ w ≠ 0#16 ∧ s.stringAt (a + 1#16) ws := by
  obtain ⟨h1, h2⟩ := h
  have h0 := h1 0 (by simp)
  simp only [List.getElem_cons_zero, BitVec.add_zero] at h0
  refine ⟨h0.1, h0.2, fun k hk => ?_, ?_⟩
  · have := h1 (k + 1) (by simpa using hk)
    rw [add_ofNat_succ]
    simpa using this
  · rw [add_ofNat_succ]; simpa using h2

theorem State.stringAt_congr {s u : State} (h : u.mem = s.mem) {a : Word} {ws : List Word}
    (hs : s.stringAt a ws) : u.stringAt a ws := by
  unfold State.stringAt at *
  simpa only [State.memPeek_congr h] using hs

/-- A string that ends is shorter than memory. -/
theorem State.stringAt_length {s : State} {a : Word} {ws : List Word} (h : s.stringAt a ws) :
    ws.length < 65536 := by
  by_contra hc
  have h1 := h.1 (ws.length % 65536) (by omega)
  have e : BitVec.ofNat 16 (ws.length % 65536) = BitVec.ofNat 16 ws.length := by
    apply BitVec.eq_of_toNat_eq; simp
  rw [e, h.2] at h1
  exact h1.2 h1.1.symm

/-- PUTS's whole run on a string that ends (R97). -/
theorem runTrap_puts {s : State} {n : Nat} {a : Word} {ws : List Word}
    (hm : s.micro = some (.pScan a)) (hs : s.stringAt a ws) (hn : ws.length + 2 ≤ n) :
    runTrap n s =
      { s with log := s.log ++ ws.map (fun w => .writeChar (lowByte w)) ++ [.flush], micro := none } := by
  induction ws generalizing s a n with
  | nil =>
    have h0 : s.memPeek a = 0#16 := by simpa [State.stringAt] using hs
    rw [runTrap_to (m := n - 1) (u := s.goto (some .pFlush)) (by simp at hn; omega) hm rfl (if_pos h0),
      runTrap_to (m := n - 2) (t := .pFlush) (by simp at hn; omega) rfl rfl rfl, runTrap_idle rfl]
    simp [microStep, State.goto, State.flush, State.issue]
  | cons w ws ih =>
    obtain ⟨h1, h2, h3⟩ := State.stringAt_tail hs
    subst h1
    simp only [List.length_cons] at hn
    rw [runTrap_to (m := n - 1) (by omega) hm rfl (if_neg h2),
      ih (s := (s.writeChar (lowByte (s.memPeek a))).goto (some (.pScan (a + 1#16)))) rfl
        (State.stringAt_congr rfl h3) (by omega)]
    simp [State.goto, State.writeChar, State.issue]

/-- What PUTSP writes for one word. -/
def packedBytes (w : Word) : List ConsoleOp :=
  .writeChar (lowByte w) :: (if highByte w = 0#8 then [] else [.writeChar (highByte w)])

/-- PUTSP's whole run on a string that ends (R99). -/
theorem runTrap_putsp {s : State} {n : Nat} {a : Word} {ws : List Word}
    (hm : s.micro = some (.qScan a)) (hs : s.stringAt a ws) (hn : 2 * ws.length + 2 ≤ n) :
    runTrap n s = { s with log := s.log ++ ws.flatMap packedBytes ++ [.flush], micro := none } := by
  induction ws generalizing s a n with
  | nil =>
    have h0 : s.memPeek a = 0#16 := by simpa [State.stringAt] using hs
    rw [runTrap_to (m := n - 1) (u := s.goto (some .qFlush)) (by simp at hn; omega) hm rfl (if_pos h0),
      runTrap_to (m := n - 2) (t := .qFlush) (by simp at hn; omega) rfl rfl rfl, runTrap_idle rfl]
    simp [microStep, State.goto, State.flush, State.issue]
  | cons w ws ih =>
    obtain ⟨h1, h2, h3⟩ := State.stringAt_tail hs
    subst h1
    simp only [List.length_cons] at hn
    rw [runTrap_to (m := n - 1) (by omega) hm rfl (if_neg h2),
      runTrap_to (m := n - 2) (t := .qHigh a (s.memPeek a)) (by omega) rfl rfl rfl,
      ih (s := microStep (.qHigh a (s.memPeek a)) ((s.writeChar (lowByte (s.memPeek a))).goto
        (some (.qHigh a (s.memPeek a))))) rfl (State.stringAt_congr (microStep_mem _ _) h3) (by omega)]
    by_cases hb : highByte (s.memPeek a) = 0#8 <;>
      simp [hb, microStep, packedBytes, State.goto, State.writeChar, State.issue]

/-- OUT's whole run (R96). -/
theorem runTrap_out {s : State} {n : Nat} (hm : s.micro = some .oWrite) (hn : 2 ≤ n) :
    runTrap n s =
      { s with log := s.log ++ [.writeChar (lowByte (s.reg .r0)), .flush], micro := none } := by
  rw [runTrap_to (m := n - 1) (by omega) hm rfl rfl,
    runTrap_to (m := n - 2) (t := .oFlush) (by omega) rfl rfl rfl, runTrap_idle rfl]
  simp [microStep, State.goto, State.writeChar, State.flush, State.issue]

end Sys2Proof.Machine
end

