-- ==== Sys2Proof/Laws/Exec.lean ====
section
/-! SUPPORT. What an instruction and a step can do: the effect of each shared ending, the induction over
the operations an instruction is made of, and the cases of a step. -/

namespace Sys2Proof.Machine

/-! ## The shared endings -/

theorem State.destWritten_writeDest (s : State) (dr : Reg) (v : Word) :
    s.destWritten (s.writeDest dr v) dr v := by
  refine ⟨s.writeDest_reg_self dr v, s.writeDest_cond dr v, fun r h => s.writeDest_reg_other v h,
    fun a => ?_, ?_⟩ <;> rw [State.writeDest_eq]
  rfl

theorem State.wordStored_memWrite (s : State) (a v : Word) : s.wordStored (s.memWrite a v) a v :=
  ⟨s.memPeek_memWrite_self a v, fun _ h => s.memPeek_memWrite_other v h, rfl⟩

theorem State.linkedOnly_trapLink (s : State) : s.linkedOnly s.trapLink :=
  ⟨s.trapLink_reg_r7, fun _ h => s.trapLink_reg_other h⟩

/-- The last state of GETC and IN, whatever the console did before it. -/
theorem State.charRead_charToR0 (s : State) (c : Byte) (m : Option TrapState)
    (inp : List HostInput) (lg : List ConsoleOp) :
    s.charRead (State.charToR0 { s.trapLink with micro := m, input := inp, log := lg } c) c := by
  refine ⟨?_, ?_, ?_, fun r h0 h7 => ?_, fun a => ?_, ?_⟩
  · show (State.writeDest _ _ _).reg .r0 = _
    rw [State.writeDest_reg_self]; rfl
  · show (State.writeDest _ _ _).cond = _
    rw [State.writeDest_cond]
    revert c; decide
  · show (State.writeDest _ _ _).reg .r7 = _
    rw [State.writeDest_reg_other _ _ (by decide)]; exact s.trapLink_reg_r7
  · show (State.writeDest _ _ _).reg r = _
    rw [State.writeDest_reg_other _ _ h0]; exact s.trapLink_reg_other h7
  · unfold State.charToR0; rw [State.writeDest_eq]; rfl
  · unfold State.charToR0; rw [State.writeDest_eq]; rfl

theorem State.poll_log (s : State) : s.log <+: s.poll.log := by
  unfold State.poll; split <;> simp [State.issue]

theorem State.fetched_eq (s : State) :
    s.fetched = { s.afterRead s.pc with
      ir := s.memRead s.pc, pc := s.pc + 1#16,
      trace := if s.cfg.trace then s.trace ++ [Opcode.ofBits (field (s.memRead s.pc) 12 4)]
        else s.trace } := by
  unfold State.fetched State.traceEmit State.fetch
  simp

/-! ## One instruction -/

/-- The generic TRAP row does what the row of its vector does. -/
theorem execTrap_eq (v : BitVec 8) (s : State) : exec (.trap v) s = exec (decodeTrap v) s := by
  show execTrap v s = _
  unfold execTrap trapRoutine decodeTrap
  by_cases h0 : v = 0x20#8; · simp only [h0]; rfl
  by_cases h1 : v = 0x21#8; · simp only [h1]; rfl
  by_cases h2 : v = 0x22#8; · simp only [h2]; rfl
  by_cases h3 : v = 0x23#8; · simp only [h3]; rfl
  by_cases h4 : v = 0x24#8; · simp only [h4]; rfl
  by_cases h5 : v = 0x25#8; · simp only [h5]; rfl
  simp only [h0, h1, h2, h3, h4, h5, if_false]; rfl

theorem decodeTrap_ne_trap (v w : BitVec 8) : decodeTrap v ≠ .trap w := by
  unfold decodeTrap
  repeat' split
  all_goals intro h; cases h

/-- A case analysis over instructions in which TRAP is one of the rows it stands for. -/
theorem exec_rows {P : Instr → State → Prop} {s : State}
    (hP : ∀ i, (∀ v, i ≠ .trap v) → ∀ t, exec i s = .next t → P i t)
    (htrap : ∀ v t, P (decodeTrap v) t → P (.trap v) t)
    (i : Instr) (t : State) (h : exec i s = .next t) : P i t := by
  cases i with
  | trap v =>
    rw [execTrap_eq] at h
    exact htrap v t (hP _ (fun w => decodeTrap_ne_trap v w) t h)
  | _ => exact hP _ (fun v hv => by cases hv) t h

/-- The induction over an instruction: what each operation keeps, the instruction keeps. -/
theorem exec_induct {P : State → Prop}
    (hreg : ∀ s r v, P s → P (State.setReg s r v)) (hcond : ∀ s v, P s → P (State.updateFlags s v))
    (hpc : ∀ s v, P s → P (State.setPC s v)) (hmem : ∀ s a v, P s → P (State.memWrite s a v))
    (hpoll : ∀ s, P s → P (State.poll s)) (hgoto : ∀ s m, P s → P (State.goto s m))
    (hhalt : ∀ s r, P s → P (State.raiseHalt s r)) (hrun : ∀ n s, P s → P (runTrap n s))
    (i : Instr) (s t : State) (h : exec i s = .next t) (hs : P s) : P t := by
  have hr : ∀ s a, P s → P (State.afterRead s a) := by
    intro s a hs
    unfold State.afterRead
    split
    · exact hpoll s hs
    · exact hs
  have hd : ∀ s r v, P s → P (State.writeDest s r v) := fun s r v hs => hcond _ _ (hreg _ _ _ hs)
  have hroutine : ∀ s t, P s → P (State.runRoutine (State.trapLink s) t) :=
    fun s t hs => hrun _ _ (hgoto _ _ (hreg _ _ _ hs))
  refine exec_rows (P := fun _ u => P u) ?_ (fun _ _ hu => hu) i t h
  intro i hi t h
  cases i with
  | trap v => exact absurd rfl (hi v)
  | br n z p o =>
    cases h
    split
    · exact hpc _ _ hs
    · exact hs
  | _ =>
    cases h
    first
      | exact hd _ _ _ hs
      | exact hpc _ _ hs
      | exact hpc _ _ (hreg _ _ _ hs)
      | exact hd _ _ _ (hr _ _ hs)
      | exact hd _ _ _ (hr _ _ (hr _ _ hs))
      | exact hmem _ _ _ hs
      | exact hmem _ _ _ (hr _ _ hs)
      | exact hroutine _ _ hs
      | exact hhalt _ _ hs

/-- Every instruction keeps the canonical form of memory. -/
theorem exec_mem_wf (i : Instr) (s t : State) (h : exec i s = .next t)
    (hw : Memory.wf s.mem = true) : Memory.wf t.mem = true :=
  exec_induct (P := fun u => Memory.wf u.mem = true) (fun _ _ _ h => h) (fun _ _ h => h)
    (fun _ _ h => h) (fun _ _ _ h => State.memWrite_wf _ _ h) (fun _ h => State.poll_wf h)
    (fun _ _ h => h) (fun _ _ h => h) (fun n u h => by rw [runTrap_mem]; exact h) i s t h hw

/-! ## The status -/

/-- A run of the handler that is entered while running leaves the status, or ends in HaltTrap with the
handler idle. -/
theorem runTrap_status (n : Nat) (s : State) (h : s.status ≠ .running → s.micro = none) :
    (runTrap n s).status = s.status ∨
      ((runTrap n s).status = .halted .haltTrap ∧ (runTrap n s).micro = none) := by
  induction n generalizing s with
  | zero => exact .inl rfl
  | succ n ih =>
    cases hm : s.micro with
    | none => rw [runTrap_idle hm]; exact .inl rfl
    | some t =>
      cases hh : holds t s.input with
      | true => rw [runTrap_held hm hh]; exact .inl rfl
      | false =>
        rw [runTrap_step hm hh]
        have hr : s.status = .running := by
          by_contra hc; rw [h hc] at hm; cases hm
        by_cases ht : t = .hFlush
        · subst ht
          rw [runTrap_idle (by rfl)]
          exact .inr ⟨rfl, rfl⟩
        · have hst : (microStep t s).status = s.status := by
            cases t <;> simp only [microStep] <;>
              first
                | rfl
                | (rcases s.readChar_eq _ with h | ⟨c, rest, -, h⟩ <;> rw [h])
                | (rcases s.writeText_eq _ _ _ _ with ⟨-, h⟩ | ⟨b, -, h⟩ <;> rw [h])
                | (split <;> rfl)
                | exact absurd rfl ht
          rcases ih (microStep t s) (fun hc => absurd (hst.trans hr) hc) with h | h
          · exact .inl (h.trans hst)
          · exact .inr h

/-- An instruction either runs a trap routine or leaves the handler as it was. -/
theorem exec_routine_or_not (i : Instr) (s t : State) (h : exec i s = .next t) :
    (∃ m, t = s.trapLink.runRoutine m) ∨
      (t.micro = s.micro ∧
        t.status = (match haltOf i with | some r => .halted r | none => s.status)) := by
  refine exec_rows (P := fun i t => (∃ m, t = s.trapLink.runRoutine m) ∨ (t.micro = s.micro ∧
    t.status = (match haltOf i with | some r => .halted r | none => s.status))) ?_ ?_ i t h
  · intro i hi t h
    have ha : ∀ a, (s.afterRead a).micro = s.micro := fun a => by rw [s.afterRead_frame]
    have hb : ∀ a, (s.afterRead a).status = s.status := fun a => by rw [s.afterRead_frame]
    cases i with
    | trap v => exact absurd rfl (hi v)
    | br n z p o => cases h; split <;> exact .inr ⟨rfl, rfl⟩
    | ldi dr o =>
      cases h
      exact .inr ⟨(State.afterRead_micro _ _).trans (ha _), (State.afterRead_status _ _).trans (hb _)⟩
    | _ =>
      cases h
      first
        | exact .inl ⟨_, rfl⟩
        | exact .inr ⟨rfl, rfl⟩
        | exact .inr ⟨ha _, hb _⟩
  · intro v t ht
    have hh : haltOf (decodeTrap v) = haltOf (.trap v) := by clear ht h; revert v; decide
    rwa [hh] at ht

/-! ## One step -/

/-- The cases of a step that goes on. -/
theorem step_cases {s t : State} (h : step s = .next t) :
    s.status = .running ∧ ((s.micro ≠ none ∧ t = s.resumeTrap) ∨
      (s.micro = none ∧ ∃ i, i = decode s.fetched.ir ∧ exec i s.fetched = .next t)) := by
  unfold step at h
  split at h
  · cases h
  · next hr =>
    refine ⟨hr, ?_⟩
    split at h
    · next hm => cases h; exact .inl ⟨by simp [hm], rfl⟩
    · next hm =>
      refine .inr ⟨hm, ?_⟩
      unfold decodeUnder at h
      split at h
      · next hd => split at hd <;> cases hd; exact ⟨_, rfl, h⟩
      · cases h

end Sys2Proof.Machine
end

