-- ==== Sys2Proof/Laws/PerInstr.lean ====
section
/-! SUPPORT. Statements made per instruction. `OpcodeOfEncoding`: the four opcode bits of an
instruction's word name its opcode (30_encoding.md R59). -/

namespace Sys2Proof.Laws.OpcodeOfEncoding

/-- Bits 15:12 of the encoding are the instruction's opcode. -/
def Statement (i : Instr) : Prop := Opcode.ofBits (field (encode i) 12 4) = i.opcode

theorem addReg (dr sr1 sr2 : Reg) : Statement (.addReg dr sr1 sr2) := opcode_encode _
theorem addImm (dr sr1 : Reg) (imm5 : BitVec 5) : Statement (.addImm dr sr1 imm5) := opcode_encode _
theorem andReg (dr sr1 sr2 : Reg) : Statement (.andReg dr sr1 sr2) := opcode_encode _
theorem andImm (dr sr1 : Reg) (imm5 : BitVec 5) : Statement (.andImm dr sr1 imm5) := opcode_encode _
theorem not (dr sr : Reg) : Statement (.not dr sr) := opcode_encode _
theorem br (n z p : Bool) (off9 : BitVec 9) : Statement (.br n z p off9) := opcode_encode _
theorem jmp (base : Reg) : Statement (.jmp base) := opcode_encode _
theorem ret : Statement .ret := opcode_encode _
theorem jsr (off11 : BitVec 11) : Statement (.jsr off11) := opcode_encode _
theorem jsrr (base : Reg) : Statement (.jsrr base) := opcode_encode _
theorem ld (dr : Reg) (off9 : BitVec 9) : Statement (.ld dr off9) := opcode_encode _
theorem ldi (dr : Reg) (off9 : BitVec 9) : Statement (.ldi dr off9) := opcode_encode _
theorem ldr (dr base : Reg) (off6 : BitVec 6) : Statement (.ldr dr base off6) := opcode_encode _
theorem lea (dr : Reg) (off9 : BitVec 9) : Statement (.lea dr off9) := opcode_encode _
theorem st (sr : Reg) (off9 : BitVec 9) : Statement (.st sr off9) := opcode_encode _
theorem sti (sr : Reg) (off9 : BitVec 9) : Statement (.sti sr off9) := opcode_encode _
theorem str (sr base : Reg) (off6 : BitVec 6) : Statement (.str sr base off6) := opcode_encode _
theorem trap (vect : BitVec 8) : Statement (.trap vect) := opcode_encode _
theorem getc : Statement .getc := opcode_encode _
theorem out : Statement .out := opcode_encode _
theorem puts : Statement .puts := opcode_encode _
theorem inChar : Statement .inChar := opcode_encode _
theorem putsp : Statement .putsp := opcode_encode _
theorem halt : Statement .halt := opcode_encode _
theorem trapInvalid (vect : BitVec 8) : Statement (.trapInvalid vect) := opcode_encode _
theorem rti : Statement .rti := opcode_encode _
theorem res : Statement .res := opcode_encode _

end Sys2Proof.Laws.OpcodeOfEncoding
end

