-- ==== Sys2Proof/Tests/Slice0.lean ====
section
/-! SUPPORT. The model's own tests. Expected values are those of 95_test_vectors.md (the vector's id is
in the comment) or of the example of a numbered rule. Then one witness for the hypotheses of each
statement that has hypotheses. -/

namespace Sys2Proof.Tests

open Sys2Proof Sys2Proof.Machine

set_option maxRecDepth 4000

/-! ## Well-formedness -/

theorem test_wf_jmp_r7 : (Instr.jmp .r7).wellFormed = false ∧ (Instr.jmp .r6).wellFormed = true := by
  decide
theorem test_wf_trap_row : (Instr.trap 0x21#8).wellFormed = false := by decide
theorem test_wf_valid_vector : (Instr.trapInvalid 0x25#8).wellFormed = false ∧
    (Instr.trapInvalid 0x20#8).wellFormed = false ∧
    (Instr.trapInvalid 0x26#8).wellFormed = true ∧ (Instr.trapInvalid 0x1F#8).wellFormed = true := by
  decide

/-! ## Decoding: words spelt out from R57 and the V-DEC vectors -/

-- 0001 010 000 0 00 001; V-DEC-2, 3
theorem test_decode_add_reg : decode 0b0001010000000001#16 = .addReg .r2 .r0 .r1 ∧
    decode 0x1419#16 = .addReg .r2 .r0 .r1 := by decide
-- 0001 001 000 1 00101; V-DEC-1, 4, 5
theorem test_decode_add_imm : decode 0b0001001000100101#16 = .addImm .r1 .r0 5#5 ∧
    decode 0x103F#16 = .addImm .r0 .r0 0b11111#5 ∧ decode 0x1030#16 = .addImm .r0 .r0 0b10000#5 := by
  decide
-- 0101 011 001 0 00 010; V-DEC-7, and V-DEC-6
theorem test_decode_and : decode 0b0101011001000010#16 = .andReg .r3 .r1 .r2 ∧
    decode 0x5020#16 = .andImm .r0 .r0 0#5 := by decide
-- 1001 100 101 111111; V-DEC-8, 9
theorem test_decode_not : decode 0b1001100101111111#16 = .not .r4 .r5 ∧
    decode 0x9980#16 = .not .r4 .r6 := by decide
-- 0000 101 111111110; V-DEC-12, 10, 13
theorem test_decode_br : decode 0b0000101111111110#16 = .br true false true 0x1FE#9 ∧
    decode 0x0000#16 = .br false false false 0#9 ∧ decode 0x01FF#16 = .br false false false 0x1FF#9 := by
  decide
-- 1100 000 010 000000; V-DEC-14, 15, 16
theorem test_decode_jmp_ret : decode 0b1100000010000000#16 = .jmp .r2 ∧
    decode 0xC1C0#16 = .ret ∧ decode 0xCFFF#16 = .ret := by decide
-- 0100 1 00000000010; V-DEC-17, 19
theorem test_decode_jsr : decode 0b0100100000000010#16 = .jsr 2#11 ∧
    decode 0x4C00#16 = .jsr 0x400#11 := by decide
-- 0100 0 00 011 000000; V-DEC-20, 21, 22
theorem test_decode_jsrr : decode 0b0100000011000000#16 = .jsrr .r3 ∧
    decode 0x41C0#16 = .jsrr .r7 ∧ decode 0x47FF#16 = .jsrr .r7 := by decide
-- V-DEC-23, 24, 25, 26, 27
theorem test_decode_loads : decode 0b0010011000000101#16 = .ld .r3 5#9 ∧
    decode 0b1010010000000110#16 = .ldi .r2 6#9 ∧ decode 0b0110100001000000#16 = .ldr .r4 .r1 0#6 ∧
    decode 0x6FE0#16 = .ldr .r7 .r7 0x20#6 ∧ decode 0b1110000000000010#16 = .lea .r0 2#9 := by decide
-- V-DEC-28, 29, 30
theorem test_decode_stores : decode 0b0011001000000011#16 = .st .r1 3#9 ∧
    decode 0b1011010000000100#16 = .sti .r2 4#9 ∧ decode 0b0111010001000000#16 = .str .r2 .r1 0#6 := by
  decide
-- V-DEC-31 to 39
theorem test_decode_trap : decode 0xF020#16 = .getc ∧ decode 0xF021#16 = .out ∧
    decode 0xF022#16 = .puts ∧ decode 0xF023#16 = .inChar ∧ decode 0xF024#16 = .putsp ∧
    decode 0xF025#16 = .halt ∧ decode 0xFF25#16 = .halt ∧ decode 0xF026#16 = .trapInvalid 0x26#8 ∧
    decode 0xF000#16 = .trapInvalid 0#8 := by decide
-- V-DEC-40, 41, 42
theorem test_decode_reserved : decode 0x8000#16 = .rti ∧ decode 0xD000#16 = .res ∧
    decode 0xDFFF#16 = .res := by decide

/-- The encoder writes the standard words of the rules' examples. -/
theorem test_encode : encode (.addReg .r2 .r0 .r1) = 0x1401#16 ∧ encode (.not .r4 .r5) = 0x997F#16 ∧
    encode .ret = 0xC1C0#16 ∧ encode (.jsrr .r3) = 0x40C0#16 ∧ encode (.trap 0x25#8) = 0xF025#16 ∧
    encode (.str .r2 .r1 0#6) = 0x7440#16 ∧ encode (.br true false true 0x1FE#9) = 0x0BFE#16 := by
  decide

-- V-DEC-3, 9, 16, 22, 37 are refused under STRICT_RESERVED_BITS, V-DEC-2, 8, 15, 42 are not
theorem test_strict : standardBits 0x1419#16 = false ∧ standardBits 0x9980#16 = false ∧
    standardBits 0xCFFF#16 = false ∧ standardBits 0x47FF#16 = false ∧ standardBits 0xFF25#16 = false ∧
    standardBits 0x1401#16 = true ∧ standardBits 0x997F#16 = true ∧ standardBits 0xC1C0#16 = true ∧
    standardBits 0xDFFF#16 = true := by decide

/-- The host's numbering of a row: one word, the bits above `nbits` zero. -/
theorem test_decodeTableWord : decodeTableWord 16 0xF021 = some .out ∧
    decodeTableWord 8 0x21 = some (.br false false false 0x21#9) ∧ decodeTableWord 17 0xF021 = none := by
  decide

/-! ## One step

`mk` is the reset state at a PC, with COND, registers, memory words and host input set, and the
instruction's word at PC. -/

def mk (pc word : Word) (cond : Flag) (regs : List (Reg × Word)) (cells : List (Word × Word))
    (input : List HostInput) (cfg : Config := Config.default) : State :=
  ((cells.foldl (fun (s : State) c => s.memWrite c.1 c.2)
    (regs.foldl (fun (s : State) r => s.setReg r.1 r.2)
      { State.construct cfg with pc := pc, cond := cond, input := input })).memWrite pc word)

/-- The step answers a next state with a property. -/
def stepsTo (s : State) (p : State → Bool) : Bool :=
  match step s with
  | .next t => p t
  | .fault _ => false
  | .refused _ => false

def linked : Config := { Config.default with trapLinksR7 := true }

-- V-OP-1, V-OP-6
theorem test_add_reg : stepsTo (mk 0x3000#16 0x1401#16 .zro [(.r0, 0x7FFF#16), (.r1, 1#16)] [] [])
    (fun t => decide (t.reg .r2 = 0x8000#16 ∧ t.pc = 0x3001#16 ∧ t.cond = .neg)) = true := by decide
theorem test_add_same : stepsTo (mk 0x3000#16 0x1241#16 .zro [(.r1, 0x4000#16)] [] [])
    (fun t => decide (t.reg .r1 = 0x8000#16 ∧ t.cond = .neg)) = true := by decide
-- V-OP-10, V-OP-12
theorem test_add_imm : stepsTo (mk 0x3000#16 0x1230#16 .neg [(.r0, 0x10#16), (.r1, 7#16)] [] [])
    (fun t => decide (t.reg .r1 = 0#16 ∧ t.cond = .zro)) = true := by decide
theorem test_add_imm_zero : stepsTo (mk 0x3000#16 0x1020#16 .pos [(.r0, 0x8123#16)] [] [])
    (fun t => decide (t.reg .r0 = 0x8123#16 ∧ t.cond = .neg)) = true := by decide
-- V-OP-14, V-OP-21
theorem test_and_reg : stepsTo
    (mk 0x3000#16 0x5642#16 .zro [(.r1, 0xF0F0#16), (.r2, 0x0FF0#16)] [] [])
    (fun t => decide (t.reg .r3 = 0x00F0#16 ∧ t.cond = .pos)) = true := by decide
theorem test_and_imm : stepsTo (mk 0x3000#16 0x5270#16 .zro [(.r1, 0x800F#16)] [] [])
    (fun t => decide (t.reg .r1 = 0x8000#16 ∧ t.cond = .neg)) = true := by decide
-- V-OP-26
theorem test_not : stepsTo (mk 0x3000#16 0x96FF#16 .zro [(.r3, 0x1234#16)] [] [])
    (fun t => decide (t.reg .r3 = 0xEDCB#16 ∧ t.cond = .neg)) = true := by decide
-- V-BR-6 (taken at POS, not at ZRO), V-BR-14
theorem test_br : stepsTo (mk 0x3003#16 0x0BFE#16 .pos [] [] []) (fun t => decide (t.pc = 0x3002#16)) = true ∧
    stepsTo (mk 0x3003#16 0x0BFE#16 .zro [] [] []) (fun t => decide (t.pc = 0x3004#16)) = true := by decide
theorem test_br_wraps : stepsTo (mk 0x0000#16 0x03FE#16 .pos [] [] [])
    (fun t => decide (t.pc = 0xFFFF#16 ∧ t.cond = .pos)) = true := by decide
-- V-CT-2, V-CT-3
theorem test_jmp : stepsTo (mk 0x3000#16 0xCEBF#16 .zro [(.r2, 0x4000#16)] [] [])
    (fun t => decide (t.pc = 0x4000#16)) = true := by decide
theorem test_ret : stepsTo (mk 0x3010#16 0xC1C0#16 .zro [(.r7, 0x3002#16)] [] [])
    (fun t => decide (t.pc = 0x3002#16 ∧ t.reg .r7 = 0x3002#16)) = true := by decide
-- V-CT-6, V-CT-10
theorem test_jsr : stepsTo (mk 0x3000#16 0x4C00#16 .zro [] [] [])
    (fun t => decide (t.reg .r7 = 0x3001#16 ∧ t.pc = 0x2C01#16 ∧ t.cond = .zro)) = true := by decide
theorem test_jsr_wraps : stepsTo (mk 0xFFFE#16 0x4801#16 .zro [] [] [])
    (fun t => decide (t.reg .r7 = 0xFFFF#16 ∧ t.pc = 0#16)) = true := by decide
-- V-CT-7, V-CT-8
theorem test_jsrr : stepsTo (mk 0x3005#16 0x40C0#16 .neg [(.r3, 0x3100#16)] [] [])
    (fun t => decide (t.reg .r7 = 0x3006#16 ∧ t.pc = 0x3100#16)) = true := by decide
theorem test_jsrr_r7 : stepsTo (mk 0x3005#16 0x41C0#16 .zro [(.r7, 0x5000#16)] [] [])
    (fun t => decide (t.reg .r7 = 0x3006#16 ∧ t.pc = 0x3006#16)) = true := by decide
-- V-LD-1, V-LD-2
theorem test_ld : stepsTo (mk 0x3000#16 0x2605#16 .zro [] [(0x3006#16, 0x8001#16)] [])
    (fun t => decide (t.reg .r3 = 0x8001#16 ∧ t.cond = .neg)) = true := by decide
theorem test_ld_itself : stepsTo (mk 0x3001#16 0x27FF#16 .zro [] [] [])
    (fun t => decide (t.reg .r3 = 0x27FF#16 ∧ t.cond = .pos)) = true := by decide
-- V-LD-3, V-LD-9
theorem test_ldi : stepsTo
    (mk 0x3000#16 0xA406#16 .zro [] [(0x3007#16, 0x3008#16), (0x3008#16, 7#16)] [])
    (fun t => decide (t.reg .r2 = 7#16 ∧ t.cond = .pos)) = true := by decide
theorem test_ldi_kbsr : stepsTo (mk 0x3000#16 0xA201#16 .zro [] [(0x3002#16, 0xFE00#16)] [.key 0x6B#8])
    (fun t => decide (t.reg .r1 = 0x8000#16 ∧ t.cond = .neg ∧ t.memPeek 0xFE01#16 = 0x006B#16 ∧
      t.log = [.peekReady true, .readChar 0x6B#8] ∧ t.input = [])) = true := by decide
-- V-LD-6, V-LD-11
theorem test_ldr_base : stepsTo (mk 0x3000#16 0x627F#16 .pos [(.r1, 0#16)] [] [])
    (fun t => decide (t.reg .r1 = 0#16 ∧ t.cond = .zro)) = true := by decide
theorem test_ldr_kbsr : stepsTo
    (mk 0x3000#16 0x6180#16 .zro [(.r6, 0xFE00#16)] [(0xFE00#16, 5#16)] [.key 0x41#8])
    (fun t => decide (t.reg .r0 = 0x8005#16 ∧ t.memPeek 0xFE01#16 = 0x41#16)) = true := by decide
-- V-LD-14, V-LD-15
theorem test_lea_zero : stepsTo (mk 0xFFFF#16 0xE000#16 .pos [] [] [])
    (fun t => decide (t.reg .r0 = 0#16 ∧ t.cond = .zro)) = true := by decide
theorem test_lea_no_poll : stepsTo (mk 0xFE01#16 0xEBFE#16 .zro [] [] [.key 0x41#8])
    (fun t => decide (t.reg .r5 = 0xFE00#16 ∧ t.cond = .neg ∧ t.log = [])) = true := by decide
-- V-LD-16, V-LD-17
theorem test_st : stepsTo (mk 0x3000#16 0x3203#16 .pos [(.r1, 0x1234#16)] [] [])
    (fun t => decide (t.memPeek 0x3004#16 = 0x1234#16 ∧ t.cond = .pos)) = true := by decide
theorem test_st_next_word : stepsTo
    (mk 0x3000#16 0x3200#16 .zro [(.r1, 0xF025#16)] [(0x3001#16, 0x8000#16)] [])
    (fun t => decide (t.fetch.ir = 0xF025#16)) = true := by decide
-- V-LD-18, V-LD-19
theorem test_sti : stepsTo (mk 0x3002#16 0xB404#16 .zro [(.r2, 0xFFF9#16)] [(0x3007#16, 0x3008#16)] [])
    (fun t => decide (t.memPeek 0x3008#16 = 0xFFF9#16 ∧ t.memPeek 0x3007#16 = 0x3008#16)) = true := by
  decide
theorem test_sti_kbsr : stepsTo
    (mk 0x3000#16 0xB400#16 .zro [(.r2, 0x1234#16)] [(0x3001#16, 0xFE00#16)] [.key 0x41#8])
    (fun t => decide (t.memPeek 0xFE00#16 = 0x1234#16 ∧ t.log = [] ∧ t.input = [.key 0x41#8])) = true := by
  decide
-- V-LD-21
theorem test_str : stepsTo (mk 0x3000#16 0x7260#16 .zro [(.r1, 0x3100#16)] [] [])
    (fun t => decide (t.memPeek 0x30E0#16 = 0x3100#16)) = true := by decide
-- V-TR-3, V-TR-25
theorem test_getc : stepsTo (mk 0x3000#16 0xF020#16 .zro [] [] [.key 0xFF#8])
    (fun t => decide (t.reg .r0 = 0x00FF#16 ∧ t.cond = .pos ∧ t.log = [.readChar 0xFF#8])) = true := by
  decide
theorem test_getc_hold : stepsTo (mk 0x3000#16 0xF020#16 .neg [(.r0, 0x1234#16)] [] [])
    (fun t => decide (t.reg .r0 = 0x1234#16 ∧ t.cond = .neg ∧ t.pc = 0x3001#16 ∧
      t.micro = some .gRead ∧ t.log = [])) = true := by decide
-- V-TR-4, V-TR-19
theorem test_out : stepsTo (mk 0x3000#16 0xF021#16 .zro [(.r0, 0x1241#16)] [] [])
    (fun t => decide (t.log = [.writeChar 0x41#8, .flush] ∧ t.reg .r7 = 0#16)) = true := by decide
theorem test_out_linked : stepsTo (mk 0x3000#16 0xF021#16 .zro [(.r0, 0x48#16), (.r7, 0x1111#16)] [] [] linked)
    (fun t => decide (t.log = [.writeChar 0x48#8, .flush] ∧ t.reg .r7 = 0x3001#16 ∧ t.cond = .zro)) = true := by
  decide
-- V-TR-7, V-TR-9
theorem test_puts_zero_byte : stepsTo
    (mk 0x3000#16 0xF022#16 .zro [(.r0, 0x3003#16)] [(0x3003#16, 0x0100#16), (0x3004#16, 0x41#16)] [])
    (fun t => decide (t.log = [.writeChar 0#8, .writeChar 0x41#8, .flush])) = true := by decide
theorem test_puts_wraps : stepsTo
    (mk 0x3000#16 0xF022#16 .zro [(.r0, 0xFFFF#16)] [(0#16, 0x42#16), (0xFFFF#16, 0x41#16)] [])
    (fun t => decide (t.log = [.writeChar 0x41#8, .writeChar 0x42#8, .flush] ∧ t.reg .r0 = 0xFFFF#16)) = true := by
  decide
-- V-TR-12, with a prompt of the test's own
theorem test_in : stepsTo
    (mk 0x3000#16 0xF023#16 .pos [] [] [.quiet, .key 0#8] { Config.default with inPrompt := [0x3F#8] })
    (fun t => decide (t.reg .r0 = 0#16 ∧ t.cond = .zro ∧
      t.log = [.writeChar 0x3F#8, .flush, .readChar 0#8, .writeChar 0#8, .flush])) = true := by decide
-- V-TR-15, V-TR-16
theorem test_putsp_zero_byte : stepsTo
    (mk 0x3000#16 0xF024#16 .zro [(.r0, 0x3003#16)] [(0x3003#16, 0x4900#16)] [])
    (fun t => decide (t.log = [.writeChar 0#8, .writeChar 0x49#8, .flush])) = true := by decide
theorem test_putsp_odd : stepsTo
    (mk 0x3000#16 0xF024#16 .zro [(.r0, 0x3003#16)] [(0x3003#16, 0x4241#16), (0x3004#16, 0x43#16)] [])
    (fun t => decide (t.log = [.writeChar 0x41#8, .writeChar 0x42#8, .writeChar 0x43#8, .flush])) = true := by
  decide
-- V-TR-18, with a notice of the test's own
theorem test_halt : stepsTo
    (mk 0x3001#16 0xF025#16 .zro [] [] [] { linked with haltNotice := [0x48#8] })
    (fun t => decide (t.reg .r7 = 0x3002#16 ∧ t.pc = 0x3002#16 ∧ t.status = .halted .haltTrap ∧
      t.log = [.writeChar 0x48#8, .flush] ∧ t.diag = [])) = true := by decide
-- V-TR-20, V-TR-21
theorem test_trap_invalid : stepsTo (mk 0x3000#16 0xF026#16 .zro [(.r7, 0x1111#16)] [] [] linked)
    (fun t => decide (t.reg .r7 = 0x1111#16 ∧ t.pc = 0x3001#16 ∧
      t.status = .halted (.badTrapVector 0x26#8) ∧ t.log = [] ∧
      t.diag = [.badTrapVector 0x26#8])) = true := by decide
theorem test_trap_invalid_low : stepsTo (mk 0x3000#16 0xF01F#16 .zro [] [] [])
    (fun t => decide (t.status = .halted (.badTrapVector 0x1F#8))) = true := by decide
-- V-RS-5, V-RS-2
theorem test_rti_from_kbsr : stepsTo (mk 0xFE00#16 0x8000#16 .zro [] [] [.key 0x41#8])
    (fun t => decide (t.pc = 0xFE01#16 ∧ t.memPeek 0xFE01#16 = 0x41#16 ∧
      t.status = .halted (.decodeError 0x8#4) ∧ t.log = [.peekReady true, .readChar 0x41#8])) = true := by
  decide
theorem test_rti : stepsTo (mk 0x3000#16 0x8FFF#16 .zro [] [] [])
    (fun t => decide (t.status = .halted (.decodeError 0x8#4) ∧ t.cond = .zro)) = true := by decide
-- V-RS-4
theorem test_res : stepsTo (mk 0xFFFF#16 0xDFFF#16 .zro [] [] [])
    (fun t => decide (t.pc = 0#16 ∧ t.status = .halted (.decodeError 0xD#4))) = true := by decide
/-- The generic TRAP row: validation at both ends of the range (R91). -/
theorem test_trap_row : exec (.trap 0x25#8) State.reset = exec .halt State.reset ∧
    exec (.trap 0x20#8) State.reset = exec .getc State.reset := ⟨rfl, rfl⟩

/-- No step after a halt (R32); the strict switch refuses V-OP-13. -/
theorem test_stops : step { State.reset with status := .halted .haltTrap } = .fault (.halted .haltTrap) ∧
    step (mk 0x3000#16 0x1419#16 .zro [] [] [] { Config.default with strictReservedBits := true }) =
      .refused (.reservedBits 0x1419#16) := ⟨rfl, rfl⟩

/-- The indexed set of the register file (R15), and the words COND never holds (R27). -/
theorem test_setRegById :
    (State.reset.setRegById (.gpr .r3) 5#16).map (fun t => t.regById (.gpr .r3)) = some 5#16 ∧
    (State.reset.setRegById .pc 0xFFFF#16).map (fun t => t.regById .pc) = some 0xFFFF#16 ∧
    (State.reset.setRegById .cond 4#16).map (fun t => t.cond) = some .neg ∧
    State.reset.setRegById .cond 3#16 = none ∧ State.reset.setRegById .cond 0#16 = none := by decide

/-- The trace has the fetched opcode (R68). -/
theorem test_trace : stepsTo (mk 0x3000#16 0xC1C0#16 .zro [] [] [] { Config.default with trace := true })
    (fun t => decide (t.trace = [.jmp])) = true := by decide

/-- The fetch word interface, at reset and with PC at KBSR. -/
theorem test_withFetchWord : stepsTo (State.reset.withFetchWord 16 0x1225)
      (fun t => decide (t.ir = 0x1225#16 ∧ t.reg .r1 = 5#16)) = true ∧
    stepsTo (State.withFetchWord { State.reset with pc := 0xFE00#16 } 16 0x1225)
      (fun t => decide (t.ir = 0x1225#16 ∧ t.reg .r1 = 5#16)) = true ∧
    stepsTo (State.withFetchWord { State.reset with pc := 0xFE00#16 } 16 0x997F)
      (fun t => decide (t.ir = 0x997F#16 ∧ t.reg .r4 = 0xFFFF#16)) = true := by decide

/-- A boot with a property. -/
def boots (stream : List Byte) (p : State → Bool) : Bool :=
  match boot Config.default (some stream) with
  | .ok t => p t
  | .error _ => false

-- V-LOAD-6, 7, 10
theorem test_load : boots [0x30#8, 0#8, 0x12#8, 0x25#8, 0xF0#8]
      (fun t => decide (t.mem = [(0x3000, 0x1225#16)])) = true ∧
    boots [0xFF#8, 0xFE#8, 0x12#8, 0x34#8, 0x56#8, 0x78#8]
      (fun t => decide (t.mem = [(0xFFFE, 0x1234#16), (0xFFFF, 0x5678#16)])) = true ∧
    boots [0x40#8, 0#8, 0x12#8, 0x25#8]
      (fun t => decide (t.memPeek 0x4000#16 = 0x1225#16 ∧ t.pc = 0x3000#16)) = true := by decide
-- V-LOAD-4, 5, 8
theorem test_load_fails :
    loadImage (some [0x30#8]) State.reset = .error .noOrigin ∧
    loadImage (some []) State.reset = .error .noOrigin ∧
    loadImage (some [0xFF#8, 0xFF#8, 0x12#8, 0x34#8, 0x56#8, 0x78#8]) State.reset = .error .overrun :=
  ⟨rfl, rfl, rfl⟩

/-- A zero written removes the cell: memory stays in its canonical form. -/
theorem test_memory_canonical :
    Memory.write (Memory.write (Memory.write [] 5 1#16) 3 2#16) 5 0#16 = [(3, 2#16)] ∧
    Memory.wf (Memory.write (Memory.write [] 5 1#16) 3 2#16) = true ∧
    Memory.wf [(5, 1#16), (3, 2#16)] = false ∧ Memory.wf [(5, 0#16)] = false ∧
    Memory.wf [(65536, 1#16)] = false := by decide

/-! ## Witnesses: the hypotheses of each statement can be met -/

theorem witness_PcStartsAt3000WhateverTheOrigin :
    ∃ s, boot Config.default (some [0x40#8, 0#8, 0x12#8, 0x25#8]) = .ok s := ⟨_, rfl⟩

theorem witness_LoadPlacesTheImage : (0xFFFE#16).toNat + [0x1234#16, 0x5678#16].length ≤ 0x10000 ∧
    (1 < [0x1234#16, 0x5678#16].length) ∧ (0#16).toNat < (0xFFFE#16).toNat := by decide
theorem witness_LoadPlacesTheImage_above : (0x3000#16).toNat + [0x1225#16].length ≤ 0x10000 ∧
    (0x3000#16).toNat + [0x1225#16].length ≤ (0x3001#16).toNat := by decide

theorem witness_LoadFailuresAndTheOddByte : ([0x30#8] : List Byte).length < 2 ∧
    0x10000 < (0xFF#8).toNat * 256 + (0xFF#8).toNat + ([0#8, 0#8, 0#8, 0#8] : List Byte).length / 2 ∧
    ([0x30#8, 0#8] : List Byte).length % 2 = 0 := by decide

theorem witness_UpdateFlagsBySign : (0x8000#16 ≠ 0#16 ∧ (0x8000#16).getLsbD 15 = true) ∧
    (0x7FFF#16 ≠ 0#16 ∧ (0x7FFF#16).getLsbD 15 = false) := by decide

theorem witness_SignExtension : (1 ≤ 1 ∧ 1 ≤ 16 ∧ (1#16).toNat < 2 ^ 1) ∧
    (1 ≤ 16 ∧ 16 ≤ 16 ∧ (0xFFFF#16).toNat < 2 ^ 16) := by decide

/-- A word of each mask and match that the instruction statements name. -/
theorem witness_words : 0x1401#16 &&& 0xF020#16 = 0x1000#16 ∧ 0x1225#16 &&& 0xF020#16 = 0x1020#16 ∧
    0x5642#16 &&& 0xF020#16 = 0x5000#16 ∧ 0x5020#16 &&& 0xF020#16 = 0x5020#16 ∧
    0x997F#16 &&& 0xF000#16 = 0x9000#16 ∧ 0x0BFE#16 &&& 0xF000#16 = 0x0000#16 ∧
    0xC080#16 &&& 0xF000#16 = 0xC000#16 ∧ 0x4802#16 &&& 0xF800#16 = 0x4800#16 ∧
    0x40C0#16 &&& 0xF800#16 = 0x4000#16 ∧ 0x2605#16 &&& 0xF000#16 = 0x2000#16 ∧
    0xA406#16 &&& 0xF000#16 = 0xA000#16 ∧ 0x6840#16 &&& 0xF000#16 = 0x6000#16 ∧
    0xE002#16 &&& 0xF000#16 = 0xE000#16 ∧ 0x3203#16 &&& 0xF000#16 = 0x3000#16 ∧
    0xB404#16 &&& 0xF000#16 = 0xB000#16 ∧ 0x7440#16 &&& 0xF000#16 = 0x7000#16 := by decide
theorem witness_trap_words : 0xF025#16 &&& 0xF000#16 = 0xF000#16 ∧ 0xF020#16 &&& 0xF0FF#16 = 0xF020#16 ∧
    0xF021#16 &&& 0xF0FF#16 = 0xF021#16 ∧ 0xF022#16 &&& 0xF0FF#16 = 0xF022#16 ∧
    0xF023#16 &&& 0xF0FF#16 = 0xF023#16 ∧ 0xF024#16 &&& 0xF0FF#16 = 0xF024#16 ∧
    0xFF25#16 &&& 0xF0FF#16 = 0xF025#16 ∧ 0x8FFF#16 &&& 0xF000#16 = 0x8000#16 ∧
    0xD123#16 &&& 0xF000#16 = 0xD000#16 := by decide

theorem witness_DestWritten : State.reset.destWritten (State.reset.writeDest .r2 0x8000#16) .r2 0x8000#16 := by
  refine ⟨rfl, rfl, ?_, fun _ => rfl, rfl⟩
  intro r h
  cases r <;> first | rfl | exact absurd rfl h

theorem witness_BrBranchesOnARequestedFlag :
    (true = true ∧ State.reset.cond = .zro) ∧ ¬ (true = true ∧ State.reset.cond = .neg) := by decide

theorem witness_JsrrLinksThenReadsTheBase : Reg.r3 ≠ .r7 ∧ Reg.r7 = .r7 := by decide

theorem witness_MemReadPollsExactlyAtKbsr :
    State.reset.cfg.kbdrAddr ≠ State.reset.cfg.kbsrAddr ∧ 0x3000#16 ≠ State.reset.cfg.kbsrAddr ∧
    (State.reset.supply 0x41#8).input = .key 0x41#8 :: [] ∧
    (State.reset.supply 0x41#8).cfg.kbdrAddr ≠ (State.reset.supply 0x41#8).cfg.kbsrAddr ∧
    State.reset.input = [] := by decide
theorem witness_MemRead_quiet : { State.reset with input := [.quiet] }.input = [.quiet] ∧
    { State.reset with input := [.quiet] }.cfg.kbdrAddr ≠ 0xFE00#16 := by decide

theorem witness_EveryKbsrReadConsumesACharacter :
    State.reset.cfg.kbdrAddr ≠ State.reset.cfg.kbsrAddr ∧
    ((State.reset.supply 0x41#8).supply 0x42#8).input = .key 0x41#8 :: .key 0x42#8 :: [] := by decide

theorem witness_CanonicalMemoryIsItsWords : Memory.wf [(3, 2#16), (5, 1#16)] = true ∧
    Memory.write [(5, 1#16)] 3 2#16 = [(3, 2#16), (5, 1#16)] ∧
    (∀ a : Word, Memory.read (Memory.write [(5, 1#16)] 3 2#16) a.toNat =
      Memory.read [(3, 2#16), (5, 1#16)] a.toNat) :=
  ⟨rfl, rfl, fun _ => rfl⟩

/-- An address that is KBSR (the poll clause) and one that is not, for LD, LDR, LDI and STI. -/
theorem witness_load_addresses :
    State.reset.pc + BitVec.ofInt 16 (5#9).toInt ≠ State.reset.cfg.kbsrAddr ∧
    State.reset.memRead (State.reset.pc + BitVec.ofInt 16 (5#9).toInt) ≠ State.reset.cfg.kbsrAddr ∧
    { State.reset with pc := 0xFE01#16 }.pc + BitVec.ofInt 16 (0x1FF#9).toInt = State.reset.cfg.kbsrAddr ∧
    State.reset.reg .r6 + BitVec.ofInt 16 (0x3F#6).toInt = 0xFFFF#16 := by decide

theorem witness_TheNextFetchSeesTheStore : State.reset.pc ≠ State.reset.cfg.kbsrAddr ∧
    storeAddress State.reset (.st .r1 0#9) = some State.reset.pc ∧
    (∃ t, exec (.st .r1 0#9) State.reset = .next t) :=
  ⟨by decide, by decide, _, rfl⟩
theorem witness_TheNextFetch_sti_str :
    storeAddress (State.reset.memWrite 0x3001#16 0x3000#16) (.sti .r1 1#9) = some 0x3000#16 ∧
    storeAddress (State.reset.setReg .r1 0x3000#16) (.str .r2 .r1 0#6) = some 0x3000#16 := by decide

theorem witness_TrapValidates : ((0x1F#8).toNat < 0x20 ∨ 0x25 < (0x1F#8).toNat) ∧
    ((0x26#8).toNat < 0x20 ∨ 0x25 < (0x26#8).toNat) ∧
    (0x20 ≤ (0x20#8).toNat ∧ (0x20#8).toNat ≤ 0x25) ∧ (0x20 ≤ (0x25#8).toNat ∧ (0x25#8).toNat ≤ 0x25) := by
  decide

theorem witness_InvalidVectorHalts : 0xF026#16 &&& 0xF000#16 = 0xF000#16 ∧
    ((0xF026#16).extractLsb' 0 8).toNat = 0x26 ∧ ((0xFF1F#16).extractLsb' 0 8).toNat = 0x1F ∧
    0xFF1F#16 &&& 0xF000#16 = 0xF000#16 := by decide

/-- GETC and IN, with no mark and with marks before the character. -/
theorem witness_CharacterSupplied :
    (State.reset.supply 0x61#8).input = List.replicate 0 .quiet ++ .key 0x61#8 :: [] ∧
    { State.reset with input := [.quiet, .quiet, .key 0#8, .quiet] }.input =
      List.replicate 2 .quiet ++ .key 0#8 :: [.quiet] := by decide

/-- A string that wraps past 0xFFFF, and the empty string, for PUTS and PUTSP. -/
theorem witness_PutsWritesTheLowBytes :
    (mk 0x3000#16 0xF022#16 .zro [(.r0, 0xFFFF#16)] [(0xFFFF#16, 0x4100#16)] []).stringAt 0xFFFF#16 [0x4100#16] ∧
    State.reset.stringAt (State.reset.reg .r0) [] := by
  refine ⟨⟨?_, by decide⟩, ⟨?_, by decide⟩⟩
  · intro k h
    match k, h with
    | 0, _ => exact ⟨rfl, by show 0x4100#16 ≠ 0#16; decide⟩
  · intro k h; exact absurd h (by simp)

theorem witness_ConsoleReadsHold : State.reset.status = .running ∧
    State.reset.input = List.replicate 0 .quiet ∧
    { State.reset with input := [.quiet, .quiet] }.input = List.replicate 2 .quiet := by decide

/-- A memory with no zero word. -/
def fullMemory : Memory := (List.range 65536).map (fun a => (a, 1#16))

theorem read_ones (l : List Nat) (a : Nat) (h : a ∈ l) :
    Memory.read (l.map (fun b => (b, 1#16))) a = 1#16 := by
  induction l with
  | nil => cases h
  | cons b l ih =>
    rw [List.map_cons, Memory.read]
    split
    · rfl
    · next hne =>
      rcases List.mem_cons.1 h with rfl | h
      · exact absurd rfl hne
      · exact ih h

theorem noZeroWord_of_read {s : State} {m : Memory} (k : Option TrapState)
    (h : ∀ a : Word, Memory.read m a.toNat ≠ 0#16) : State.noZeroWord { s with mem := m, micro := k } := h

theorem fullMemory_read (a : Word) : Memory.read fullMemory a.toNat ≠ 0#16 := by
  rw [fullMemory, read_ones _ _ (List.mem_range.2 a.isLt)]
  decide

theorem witness_ScanWithoutAZeroWordNeverEnds :
    State.noZeroWord { State.reset with mem := fullMemory, micro := some (.qHigh 0#16 1#16) } ∧
    State.scanning { State.reset with mem := fullMemory, micro := some (.qHigh 0#16 1#16) } ∧
    State.reset.status = .running :=
  ⟨noZeroWord_of_read _ fullMemory_read, ⟨0#16, .inr (.inr ⟨1#16, rfl⟩)⟩, rfl⟩

theorem witness_DecodeOfEncodeIsTheInstruction : (Instr.jmp .r6).wellFormed = true ∧
    (Instr.trapInvalid 0xFF#8).wellFormed = true ∧ (Instr.addImm .r7 .r0 0x10#5).wellFormed = true := by
  decide

theorem witness_UnnamedBitsAreIgnored : 0x0018#16 &&& ~~~ (decode 0x1401#16).ignoredBits = 0#16 ∧
    0x0FFF#16 &&& ~~~ (decode 0xD000#16).ignoredBits = 0#16 := by decide

theorem witness_StepRunsTheDecodedInstruction : State.reset.status = .running ∧ State.reset.micro = none ∧
    State.reset.memRead State.reset.pc = 0#16 ∧ decode 0#16 = .br false false false 0#9 ∧
    (State.reset.cfg.strictReservedBits = true → standardBits 0#16 = true) ∧
    ((State.construct { Config.default with strictReservedBits := true }).memRead 0x3000#16 = 0#16 ∧
      standardBits 0#16 = true) := by decide

theorem witness_StrictSwitch :
    (mk 0x3000#16 0x1419#16 .zro [] [] [] { Config.default with strictReservedBits := true }).micro = none ∧
    (mk 0x3000#16 0x1419#16 .zro [] [] [] { Config.default with strictReservedBits := true }).status = .running ∧
    (0x1419#16 &&& 0xF020#16 = 0x1000#16 ∧ 0x1419#16 &&& 0x0018#16 ≠ 0#16) ∧
    (0x8001#16 &&& 0xF000#16 = 0x8000#16 ∧ 0x8001#16 &&& 0x0FFF#16 ≠ 0#16) := by decide

theorem witness_StepIsEnabledExactlyWhileRunning :
    { State.reset with status := .halted .haltTrap }.status = .halted .haltTrap ∧
    State.reset.status = .running ∧ State.reset.cfg.strictReservedBits = false ∧
    ((State.construct { Config.default with strictReservedBits := true }).status = .running ∧
      standardBits ((State.construct { Config.default with strictReservedBits := true }).memRead 0x3000#16) =
        true) := by decide
theorem witness_StepIsEnabled_blocked : State.blocked { State.reset with micro := some .gRead } ∧
    State.blocked { State.reset with micro := some .iRead, input := [.quiet] } :=
  ⟨⟨rfl, .inl rfl, rfl⟩, ⟨rfl, .inr rfl, rfl⟩⟩

theorem witness_ZeroWordIsANoOp : State.reset.status = .running ∧ State.reset.micro = none ∧
    State.reset.cfg.trace = false ∧ State.reset.pc ≠ State.reset.cfg.kbsrAddr ∧
    State.reset.memPeek State.reset.pc = 0#16 := by decide

theorem witness_PlacedWordIsTheOneRun : State.reset.cfg.strictReservedBits = false ∧
    State.reset.cfg.kbdrAddr ≠ State.reset.cfg.kbsrAddr := by decide

theorem witness_OnlyListedRegistersAreWritten : (∃ t, exec (.trap 0x20#8) State.reset = .next t) ∧
    Reg.r7 ∉ writtenRegs State.reset.cfg (.trap 0x20#8) ∧
    Reg.r1 ∉ writtenRegs State.reset.cfg (.addReg .r0 .r1 .r1) := ⟨⟨_, rfl⟩, by decide, by decide⟩

theorem witness_OnlyControlTransfersWritePc : (∃ t, exec .halt State.reset = .next t) ∧
    writesPC .halt = false := ⟨⟨_, rfl⟩, rfl⟩

theorem witness_OnlyListedInstructionsWriteCond : (∃ t, exec (.trap 0x21#8) State.reset = .next t) ∧
    writesCond (.trap 0x21#8) = false := ⟨⟨_, rfl⟩, by decide⟩

theorem witness_MemoryChangesOnlyByStoresAndPolls :
    (∃ t, exec (.sti .r0 0#9) State.reset = .next t) ∧
    storeAddress State.reset (.sti .r0 0#9) ≠ some 0x3000#16 ∧ 0x3000#16 ≠ State.reset.cfg.kbsrAddr ∧
    0x3000#16 ≠ State.reset.cfg.kbdrAddr ∧ State.reset.cfg.kbsrAddr ∉ readAddresses State.reset (.str .r0 .r0 0#6) ∧
    storeAddress State.reset (.str .r0 .r0 0#6) ≠ some 0xFE00#16 ∧
    State.reset.cfg.kbsrAddr ∉ readAddresses State.reset (.ldi .r0 0#9) :=
  ⟨⟨_, rfl⟩, by decide, by decide, by decide, by decide, by decide, by decide⟩

/-- For the statements about `exec i s = next t` and `step s = next t`. -/
theorem witness_next : (∃ t, exec .rti State.reset = .next t) ∧
    (∃ t, step (State.reset.withFetchWord 16 0x8000) = .next t) :=
  ⟨⟨_, rfl⟩, ⟨_, rfl⟩⟩

theorem witness_StepKeepsTheInvariant : State.reset.Inv ∧
    (∃ t, step State.reset = .next t) ∧
    State.Inv { State.reset with mem := [(5, 1#16)], micro := some .gRead } :=
  ⟨⟨rfl, .inl rfl, fun _ => rfl⟩,
    ⟨_, rfl⟩,
    ⟨rfl, .inr (.inl rfl), fun h => absurd rfl h⟩⟩

theorem witness_OldInstructionRegisterIsInvisible :
    State.reset.status = .running ∧ State.reset.micro = none := by decide

end Sys2Proof.Tests
end

section
/-! PROOF. What a load and a boot answer (70_reset_and_hazards.md R123 to R128), the flag of a value
by its sign (10_state.md R25), and the obligations O1 and O5. -/

namespace Sys2Proof.Machine

/-! ## The load of an image -/

/-- What a successful load needs and what it answers: the words of the image placed from its origin on,
and no field but the memory changed. -/
theorem loadImage_eq_ok_iff {stream : Option (List Byte)} {s t : State} :
    loadImage stream s = .ok t ↔ ∃ bytes origin words, stream = some bytes ∧
      imageWords bytes = origin :: words ∧ origin.toNat + words.length ≤ 0x10000 ∧
      t = { s with mem := writeWords s.mem origin.toNat words } := by
  cases stream with
  | none => simp [loadImage]
  | some bytes =>
    cases h : imageWords bytes with
    | nil => simp [loadImage, h]
    | cons origin words =>
      by_cases hfit : 0x10000 < origin.toNat + words.length
      · simp [loadImage, h, hfit]
      · simp [loadImage, h, hfit, Nat.le_of_not_lt hfit, eq_comm]

/-- A machine that boots is the constructed machine up to its memory. -/
theorem boot_ok_frame {cfg : Config} {stream : Option (List Byte)} {s : State}
    (h : boot cfg stream = .ok s) : s = { State.construct cfg with mem := s.mem } := by
  obtain ⟨_, _, _, _, _, _, rfl⟩ := loadImage_eq_ok_iff.mp h
  rfl

@[simp] theorem State.construct_pc (cfg : Config) : (State.construct cfg).pc = 0x3000#16 := rfl

theorem boot_ok_pc {cfg : Config} {stream : Option (List Byte)} {s : State}
    (h : boot cfg stream = .ok s) : s.pc = (State.construct cfg).pc := by
  rw [boot_ok_frame h]

/-! ## The flag of a value -/

@[simp] theorem flagOf_zero : flagOf 0#16 = .zro := rfl

theorem flagOf_of_bit15 {v : Word} (h0 : v ≠ 0#16) (h15 : v.getLsbD 15 = true) :
    flagOf v = .neg := by
  rw [flagOf, if_neg h0, if_pos h15]

theorem flagOf_of_not_bit15 {v : Word} (h0 : v ≠ 0#16) (h15 : v.getLsbD 15 = false) :
    flagOf v = .pos := by
  rw [flagOf, if_neg h0, if_neg (ne_true_of_eq_false h15)]

/-- Bit 15 is the sign of a word. -/
theorem getLsbD_15_eq_true_iff_toInt_neg (v : Word) : v.getLsbD 15 = true ↔ v.toInt < 0 := by
  rw [← BitVec.msb_eq_getLsbD_last, BitVec.msb_eq_toInt, decide_eq_true_iff]

/-- The three values of the flag against the sign of the value: each case excludes the other two. -/
theorem flagOf_sign (v : Word) :
    (v.toInt = 0 ∧ flagOf v = .zro) ∨ (v.toInt < 0 ∧ flagOf v = .neg) ∨
      (0 < v.toInt ∧ flagOf v = .pos) := by
  by_cases h0 : v = 0#16
  · subst h0; exact .inl ⟨rfl, rfl⟩
  · have hne : v.toInt ≠ 0 := fun h => h0 (BitVec.eq_of_toInt_eq h)
    by_cases hneg : v.toInt < 0
    · exact .inr (.inl ⟨hneg, flagOf_of_bit15 h0 ((getLsbD_15_eq_true_iff_toInt_neg v).mpr hneg)⟩)
    · have h15 : v.getLsbD 15 = false := by
        rwa [← Bool.not_eq_true, getLsbD_15_eq_true_iff_toInt_neg]
      exact .inr (.inr ⟨by omega, flagOf_of_not_bit15 h0 h15⟩)

theorem flagOf_eq_neg_iff (v : Word) : flagOf v = .neg ↔ v.toInt < 0 := by
  rcases flagOf_sign v with ⟨hs, hf⟩ | ⟨hs, hf⟩ | ⟨hs, hf⟩ <;> simp [hf] <;> omega

theorem flagOf_eq_pos_iff (v : Word) : flagOf v = .pos ↔ 0 < v.toInt := by
  rcases flagOf_sign v with ⟨hs, hf⟩ | ⟨hs, hf⟩ | ⟨hs, hf⟩ <;> simp [hf] <;> omega

theorem State.updateFlags_eq (s : State) (v : Word) :
    s.updateFlags v = { s with cond := flagOf v } := rfl

/-- The flag that an instruction with a DR leaves is that of the register's value after the write. -/
theorem State.writeDest_cond_eq_flagOf_reg (s : State) (dr : Reg) (v : Word) :
    (s.writeDest dr v).cond = flagOf ((s.writeDest dr v).reg dr) := by
  rw [State.writeDest_cond, State.writeDest_reg_self]

/-! ## The obligations -/

/-- Settles O1: the constructed machine has PC 0x3000, and a boot changes nothing of it but memory. -/
theorem pcStartsAt3000WhateverTheOrigin : Obligations.PcStartsAt3000WhateverTheOrigin := by
  unfold Obligations.PcStartsAt3000WhateverTheOrigin
  exact ⟨State.construct_pc, fun cfg _ _ h => (boot_ok_pc h).trans (State.construct_pc cfg)⟩

/-- Settles O5, from the cases of `flagOf` and the sign of a word. -/
theorem updateFlagsBySign : Obligations.UpdateFlagsBySign := by
  unfold Obligations.UpdateFlagsBySign
  intro s v
  exact ⟨s.updateFlags_eq v, fun h => h ▸ flagOf_zero, flagOf_of_bit15, flagOf_of_not_bit15,
    flagOf_eq_neg_iff v, flagOf_eq_pos_iff v, fun dr => s.writeDest_cond_eq_flagOf_reg dr v⟩

end Sys2Proof.Machine
end

section
/-! PROOF. The write access of memory (20_memory.md R40), and the obligation O16. -/

namespace Sys2Proof.Machine

/-- Settles O16: `memWrite` has no branch on the address, so the rule of a store
(`State.wordStored_memWrite`) holds at KBSR and KBDR as at every other word. -/
theorem memWriteIsPlainEverywhere : Obligations.MemWriteIsPlainEverywhere := by
  unfold Obligations.MemWriteIsPlainEverywhere
  exact State.wordStored_memWrite

end Sys2Proof.Machine
end

section
/-! PROOF. The operate instructions ADD, AND and NOT (41_operate.md R70 to R76): the words that decode
to them, what their execution answers, and the obligations O8, O9 and O10. -/

namespace Sys2Proof

/-! ## Decoding -/

/-- The words of opcode ADD: bit 5 selects the mode (R72, R73). -/
theorem decode_of_opcode_add {w : Word} (h : Opcode.ofBits (field w 12 4) = .add) :
    decode w = bif w.getLsbD 5
      then .addImm (Reg.ofBits (field w 9 3)) (Reg.ofBits (field w 6 3)) (field w 0 5)
      else .addReg (Reg.ofBits (field w 9 3)) (Reg.ofBits (field w 6 3))
        (Reg.ofBits (field w 0 3)) := by
  simp only [decode, h]

/-- The words of opcode AND: bit 5 selects the mode (R74, R75). -/
theorem decode_of_opcode_and {w : Word} (h : Opcode.ofBits (field w 12 4) = .and) :
    decode w = bif w.getLsbD 5
      then .andImm (Reg.ofBits (field w 9 3)) (Reg.ofBits (field w 6 3)) (field w 0 5)
      else .andReg (Reg.ofBits (field w 9 3)) (Reg.ofBits (field w 6 3))
        (Reg.ofBits (field w 0 3)) := by
  simp only [decode, h]

theorem decode_of_opcode_not {w : Word} (h : Opcode.ofBits (field w 12 4) = .not) :
    decode w = .not (Reg.ofBits (field w 9 3)) (Reg.ofBits (field w 6 3)) := by
  simp only [decode, h]

theorem decode_eq_addReg {w : Word} (h : w &&& 0xF020#16 = 0x1000#16) :
    decode w = .addReg (Reg.ofBits (field w 9 3)) (Reg.ofBits (field w 6 3))
      (Reg.ofBits (field w 0 3)) := by
  have hmode : w.getLsbD 5 = false := bit_of_mask h 5 rfl
  rw [decode_of_opcode_add (opcode_of_mask h (by decide)), hmode, cond_false]

theorem decode_eq_addImm {w : Word} (h : w &&& 0xF020#16 = 0x1020#16) :
    decode w = .addImm (Reg.ofBits (field w 9 3)) (Reg.ofBits (field w 6 3)) (field w 0 5) := by
  have hmode : w.getLsbD 5 = true := bit_of_mask h 5 rfl
  rw [decode_of_opcode_add (opcode_of_mask h (by decide)), hmode, cond_true]

theorem decode_eq_andReg {w : Word} (h : w &&& 0xF020#16 = 0x5000#16) :
    decode w = .andReg (Reg.ofBits (field w 9 3)) (Reg.ofBits (field w 6 3))
      (Reg.ofBits (field w 0 3)) := by
  have hmode : w.getLsbD 5 = false := bit_of_mask h 5 rfl
  rw [decode_of_opcode_and (opcode_of_mask h (by decide)), hmode, cond_false]

theorem decode_eq_andImm {w : Word} (h : w &&& 0xF020#16 = 0x5020#16) :
    decode w = .andImm (Reg.ofBits (field w 9 3)) (Reg.ofBits (field w 6 3)) (field w 0 5) := by
  have hmode : w.getLsbD 5 = true := bit_of_mask h 5 rfl
  rw [decode_of_opcode_and (opcode_of_mask h (by decide)), hmode, cond_true]

theorem decode_eq_not {w : Word} (h : w &&& 0xF000#16 = 0x9000#16) :
    decode w = .not (Reg.ofBits (field w 9 3)) (Reg.ofBits (field w 6 3)) :=
  decode_of_opcode_not (opcode_of_mask h (by decide))

end Sys2Proof

namespace Sys2Proof.Machine

/-! ## Execution -/

/-- The sign extension of R10 is the signed value of the field as a word. -/
theorem sext_eq_ofInt_toInt {n : Nat} (v : BitVec n) : sext v = BitVec.ofInt 16 v.toInt := rfl

theorem exec_addReg (dr sr1 sr2 : Reg) (s : State) :
    exec (.addReg dr sr1 sr2) s = .next (s.writeDest dr (s.reg sr1 + s.reg sr2)) := rfl

theorem exec_addImm (dr sr1 : Reg) (imm5 : BitVec 5) (s : State) :
    exec (.addImm dr sr1 imm5) s = .next (s.writeDest dr (s.reg sr1 + sext imm5)) := rfl

theorem exec_andReg (dr sr1 sr2 : Reg) (s : State) :
    exec (.andReg dr sr1 sr2) s = .next (s.writeDest dr (s.reg sr1 &&& s.reg sr2)) := rfl

theorem exec_andImm (dr sr1 : Reg) (imm5 : BitVec 5) (s : State) :
    exec (.andImm dr sr1 imm5) s = .next (s.writeDest dr (s.reg sr1 &&& sext imm5)) := rfl

theorem exec_not (dr sr : Reg) (s : State) :
    exec (.not dr sr) s = .next (s.writeDest dr (~~~ s.reg sr)) := rfl

/-- An instruction that ends in `writeDest` on the state it is executed in completes with the effect
and the frame of an instruction with a DR. -/
theorem exists_destWritten_of_exec_eq {i : Instr} {s : State} {dr : Reg} {v : Word}
    (h : exec i s = .next (s.writeDest dr v)) :
    ∃ t, exec i s = .next t ∧ s.destWritten t dr v :=
  ⟨s.writeDest dr v, h, s.destWritten_writeDest dr v⟩

/-! ## The obligations -/

/-- Settles O8: opcode and mode bit of a word by the row's mask, and the ending `writeDest` of both
modes. -/
theorem addComputesTheSumAndFlags : Obligations.AddComputesTheSumAndFlags := by
  unfold Obligations.AddComputesTheSumAndFlags
  refine ⟨fun _ => decode_eq_addReg, fun _ => decode_eq_addImm, fun s dr sr1 sr2 => ?_,
    fun s dr sr1 imm5 => ?_⟩
  · exact exists_destWritten_of_exec_eq (exec_addReg dr sr1 sr2 s)
  · rw [← sext_eq_ofInt_toInt]
    exact exists_destWritten_of_exec_eq (exec_addImm dr sr1 imm5 s)

/-- Settles O9: opcode and mode bit of a word by the row's mask, and the ending `writeDest` of both
modes. -/
theorem andComputesTheMeetAndFlags : Obligations.AndComputesTheMeetAndFlags := by
  unfold Obligations.AndComputesTheMeetAndFlags
  refine ⟨fun _ => decode_eq_andReg, fun _ => decode_eq_andImm, fun s dr sr1 sr2 => ?_,
    fun s dr sr1 imm5 => ?_⟩
  · exact exists_destWritten_of_exec_eq (exec_andReg dr sr1 sr2 s)
  · rw [← sext_eq_ofInt_toInt]
    exact exists_destWritten_of_exec_eq (exec_andImm dr sr1 imm5 s)

/-- Settles O10: the opcode alone selects NOT, whose ending is `writeDest`. -/
theorem notComputesTheComplementAndFlags : Obligations.NotComputesTheComplementAndFlags := by
  unfold Obligations.NotComputesTheComplementAndFlags
  exact ⟨fun _ => decode_eq_not, fun s dr sr => exists_destWritten_of_exec_eq (exec_not dr sr s)⟩

end Sys2Proof.Machine
end

section
/-! PROOF. The control transfers BR, JMP, RET and JSR (42_control.md R78 to R81): the words that decode
to them, what their execution answers, and the obligations O11, O12 and O13. -/

namespace Sys2Proof

/-! ## Decoding -/

theorem decode_of_opcode_br {w : Word} (h : Opcode.ofBits (field w 12 4) = .br) :
    decode w = .br (w.getLsbD 11) (w.getLsbD 10) (w.getLsbD 9) (field w 0 9) := by
  simp only [decode, h]

theorem decode_of_opcode_jmp {w : Word} (h : Opcode.ofBits (field w 12 4) = .jmp) :
    decode w = decodeJmp (Reg.ofBits (field w 6 3)) := by
  simp only [decode, h]

/-- The words of opcode JSR: bit 11 selects JSR or JSRR (R81, R82). -/
theorem decode_of_opcode_jsr {w : Word} (h : Opcode.ofBits (field w 12 4) = .jsr) :
    decode w = bif w.getLsbD 11 then .jsr (field w 0 11) else .jsrr (Reg.ofBits (field w 6 3)) := by
  simp only [decode, h]

/-- The one base that has a row of its own is R7 (R80). -/
theorem decodeJmp_eq_ite (base : Reg) : decodeJmp base = if base = .r7 then .ret else .jmp base := by
  cases base <;> rfl

theorem decode_eq_br {w : Word} (h : w &&& 0xF000#16 = 0x0000#16) :
    decode w = .br (w.getLsbD 11) (w.getLsbD 10) (w.getLsbD 9) (field w 0 9) :=
  decode_of_opcode_br (opcode_of_mask h (by decide))

theorem decode_eq_jmp_or_ret {w : Word} (h : w &&& 0xF000#16 = 0xC000#16) :
    decode w = if Reg.ofBits (field w 6 3) = .r7 then .ret else .jmp (Reg.ofBits (field w 6 3)) :=
  (decode_of_opcode_jmp (opcode_of_mask h (by decide))).trans (decodeJmp_eq_ite _)

theorem decode_eq_jsr {w : Word} (h : w &&& 0xF800#16 = 0x4800#16) :
    decode w = .jsr (field w 0 11) := by
  have hmode : w.getLsbD 11 = true := bit_of_mask h 11 rfl
  rw [decode_of_opcode_jsr (opcode_of_mask h (by decide)), hmode, cond_true]

end Sys2Proof

namespace Sys2Proof.Machine

/-! ## The branch test (R78) -/

theorem branchTaken_iff (n z p : Bool) (f : Flag) : branchTaken n z p f = true ↔
    (n = true ∧ f = .neg) ∨ (z = true ∧ f = .zro) ∨ (p = true ∧ f = .pos) := by
  simp only [branchTaken, Bool.or_eq_true, Bool.and_eq_true, decide_eq_true_iff, or_assoc]

/-- COND's number is one-hot, so its meet with the three condition bits keeps the one requested bit of
the flag: flag by flag. -/
theorem branchTaken_iff_flagCode (n z p : Bool) (f : Flag) : branchTaken n z p f = true ↔
    (BitVec.ofBool n ++ BitVec.ofBool z ++ BitVec.ofBool p : BitVec 3) &&& (flagCode f).setWidth 3 ≠
      0#3 := by
  revert n z p
  cases f
  case neg => decide
  case zro => decide
  case pos => decide

/-! ## Execution -/

/-- The PC-relative address is PC plus the signed value of the offset (R83). -/
theorem State.pcRel_eq_add_toInt {n : Nat} (s : State) (off : BitVec n) :
    s.pcRel off = s.pc + BitVec.ofInt 16 off.toInt := rfl

@[simp] theorem State.setPC_reg (s : State) (v : Word) (r : Reg) : (s.setPC v).reg r = s.reg r := rfl

theorem exec_br_taken {n z p : Bool} {s : State} (off9 : BitVec 9)
    (h : branchTaken n z p s.cond = true) :
    exec (.br n z p off9) s = .next (s.setPC (s.pcRel off9)) :=
  congrArg Host.Outcome.next (if_pos h)

theorem exec_br_not_taken {n z p : Bool} {s : State} (off9 : BitVec 9)
    (h : ¬ branchTaken n z p s.cond = true) : exec (.br n z p off9) s = .next s :=
  congrArg Host.Outcome.next (if_neg h)

theorem exec_jmp (base : Reg) (s : State) : exec (.jmp base) s = .next (s.setPC (s.reg base)) := rfl

theorem exec_ret (s : State) : exec .ret s = .next (s.setPC (s.reg .r7)) := rfl

theorem exec_jsr (off11 : BitVec 11) (s : State) :
    exec (.jsr off11) s = .next ((s.setReg .r7 s.pc).setPC (s.pcRel off11)) := rfl

/-- BR's answer: the state up to PC, and PC by the branch test (R78). -/
theorem exec_br_spec (n z p : Bool) (off9 : BitVec 9) (s : State) :
    ∃ t, exec (.br n z p off9) s = .next t ∧ t = { s with pc := t.pc } ∧
      (branchTaken n z p s.cond = true → t.pc = s.pcRel off9) ∧
      (¬ branchTaken n z p s.cond = true → t.pc = s.pc) := by
  by_cases h : branchTaken n z p s.cond = true
  · exact ⟨_, exec_br_taken off9 h, rfl, fun _ => rfl, fun hn => absurd h hn⟩
  · exact ⟨_, exec_br_not_taken off9 h, rfl, fun ht => absurd ht h, fun _ => rfl⟩

/-! ## The obligations -/

/-- Settles O11: the opcode alone selects BR, whose answer (`exec_br_spec`) turns on the branch test, a
test of the flags and of COND's number alike. -/
theorem brBranchesOnARequestedFlag : Obligations.BrBranchesOnARequestedFlag := by
  unfold Obligations.BrBranchesOnARequestedFlag
  refine ⟨fun _ => decode_eq_br, fun s n z p off9 => ?_, fun n z p f => ?_⟩
  · rw [← branchTaken_iff, ← State.pcRel_eq_add_toInt]
    exact exec_br_spec n z p off9 s
  · rw [← branchTaken_iff]
    exact branchTaken_iff_flagCode n z p f

/-- Settles O12: the base field of a word of opcode JMP selects RET or JMP, and both set PC alone. -/
theorem jmpAndRetGoToTheBase : Obligations.JmpAndRetGoToTheBase := by
  unfold Obligations.JmpAndRetGoToTheBase
  exact ⟨fun _ => decode_eq_jmp_or_ret, decode_eq_jmp_or_ret rfl, fun s base => exec_jmp base s,
    exec_ret⟩

/-- Settles O13: bit 11 selects JSR, and the link is a register write, the jump a write of PC. -/
theorem jsrLinksThenJumps : Obligations.JsrLinksThenJumps := by
  unfold Obligations.JsrLinksThenJumps
  refine ⟨fun _ => decode_eq_jsr, fun s off11 => ⟨_, exec_jsr off11 s, ?link, ?target, ?others, rfl⟩⟩
  case link => rw [State.setPC_reg, State.reg_setReg_self]
  case target => rw [State.setPC_pc, State.pcRel_eq_add_toInt]
  case others =>
    intro r hr
    rw [State.setPC_reg, s.reg_setReg_other _ hr]

end Sys2Proof.Machine
end

section
/-! PROOF. The loads and stores LD, LDI, LDR, LEA, ST and STR (43_load_store.md R83 to R88, R90): the
words that decode to them, what their execution answers, and the obligations O19 to O23 and O25. -/

namespace Sys2Proof

/-! ## Decoding: the opcode alone selects each row -/

theorem decode_eq_ld {w : Word} (h : w &&& 0xF000#16 = 0x2000#16) :
    decode w = .ld (Reg.ofBits (field w 9 3)) (field w 0 9) := by
  have hop : Opcode.ofBits (field w 12 4) = .ld := opcode_of_mask h (by decide)
  simp only [decode, hop]

theorem decode_eq_ldi {w : Word} (h : w &&& 0xF000#16 = 0xA000#16) :
    decode w = .ldi (Reg.ofBits (field w 9 3)) (field w 0 9) := by
  have hop : Opcode.ofBits (field w 12 4) = .ldi := opcode_of_mask h (by decide)
  simp only [decode, hop]

theorem decode_eq_ldr {w : Word} (h : w &&& 0xF000#16 = 0x6000#16) :
    decode w = .ldr (Reg.ofBits (field w 9 3)) (Reg.ofBits (field w 6 3)) (field w 0 6) := by
  have hop : Opcode.ofBits (field w 12 4) = .ldr := opcode_of_mask h (by decide)
  simp only [decode, hop]

theorem decode_eq_lea {w : Word} (h : w &&& 0xF000#16 = 0xE000#16) :
    decode w = .lea (Reg.ofBits (field w 9 3)) (field w 0 9) := by
  have hop : Opcode.ofBits (field w 12 4) = .lea := opcode_of_mask h (by decide)
  simp only [decode, hop]

theorem decode_eq_st {w : Word} (h : w &&& 0xF000#16 = 0x3000#16) :
    decode w = .st (Reg.ofBits (field w 9 3)) (field w 0 9) := by
  have hop : Opcode.ofBits (field w 12 4) = .st := opcode_of_mask h (by decide)
  simp only [decode, hop]

theorem decode_eq_str {w : Word} (h : w &&& 0xF000#16 = 0x7000#16) :
    decode w = .str (Reg.ofBits (field w 9 3)) (Reg.ofBits (field w 6 3)) (field w 0 6) := by
  have hop : Opcode.ofBits (field w 12 4) = .str := opcode_of_mask h (by decide)
  simp only [decode, hop]

end Sys2Proof

namespace Sys2Proof.Machine

/-! ## Execution -/

/-- The base + offset address is the old base plus the signed value of the offset (R83). -/
theorem State.baseRel_eq_add_toInt (s : State) (base : Reg) (off6 : BitVec 6) :
    s.baseRel base off6 = s.reg base + BitVec.ofInt 16 off6.toInt := rfl

theorem exec_ld (dr : Reg) (off9 : BitVec 9) (s : State) :
    exec (.ld dr off9) s = .next (s.load dr (s.pcRel off9)) := rfl

theorem exec_ldi (dr : Reg) (off9 : BitVec 9) (s : State) :
    exec (.ldi dr off9) s =
      .next ((s.afterRead (s.pcRel off9)).load dr (s.memRead (s.pcRel off9))) := rfl

theorem exec_ldr (dr base : Reg) (off6 : BitVec 6) (s : State) :
    exec (.ldr dr base off6) s = .next (s.load dr (s.baseRel base off6)) := rfl

theorem exec_lea (dr : Reg) (off9 : BitVec 9) (s : State) :
    exec (.lea dr off9) s = .next (s.writeDest dr (s.pcRel off9)) := rfl

theorem exec_st (sr : Reg) (off9 : BitVec 9) (s : State) :
    exec (.st sr off9) s = .next (s.memWrite (s.pcRel off9) (s.reg sr)) := rfl

theorem exec_str (sr base : Reg) (off6 : BitVec 6) (s : State) :
    exec (.str sr base off6) s = .next (s.memWrite (s.baseRel base off6) (s.reg sr)) := rfl

/-! ## The shared end of the loads, and of the stores -/

/-- A load writes its DR, and nothing else, in the state its MemRead leaves. -/
theorem State.destWritten_load (s : State) (dr : Reg) (ea : Word) :
    (s.afterRead ea).destWritten (s.load dr ea) dr (s.memRead ea) :=
  (s.afterRead ea).destWritten_writeDest dr (s.memRead ea)

/-- Away from KBSR the MemRead of a load leaves the state, so the write of DR is all a load does. -/
theorem State.destWritten_load_plain {s : State} (dr : Reg) {ea : Word}
    (h : ea ≠ s.cfg.kbsrAddr) : s.destWritten (s.load dr ea) dr (s.memPeek ea) := by
  have hload := s.destWritten_load dr ea
  rwa [State.afterRead_plain h, State.memRead_plain h] at hload

/-- An instruction that ends in `load` on the state it is executed in completes with the effect and
the frame of a load, at KBSR and away from it. -/
theorem exists_loaded_of_exec_eq {i : Instr} {s : State} {dr : Reg} {ea : Word}
    (h : exec i s = .next (s.load dr ea)) :
    ∃ t, exec i s = .next t ∧ (s.afterRead ea).destWritten t dr (s.memRead ea) ∧
      (ea ≠ s.cfg.kbsrAddr → s.destWritten t dr (s.memPeek ea)) :=
  ⟨s.load dr ea, h, s.destWritten_load dr ea, State.destWritten_load_plain dr⟩

/-- A load through a pointer word: where neither read polls, both reads leave the state. -/
theorem State.destWritten_load_indirect_plain {s : State} (dr : Reg) {pa : Word}
    (hpa : pa ≠ s.cfg.kbsrAddr) (hp : s.memRead pa ≠ s.cfg.kbsrAddr) :
    s.destWritten ((s.afterRead pa).load dr (s.memRead pa)) dr (s.memPeek (s.memPeek pa)) := by
  rw [State.memRead_plain hpa] at hp ⊢
  rw [State.afterRead_plain hpa]
  exact State.destWritten_load_plain dr hp

/-- An instruction that ends in `memWrite` on the state it is executed in completes with the effect
and the frame of a store. -/
theorem exists_wordStored_of_exec_eq {i : Instr} {s : State} {ea v : Word}
    (h : exec i s = .next (s.memWrite ea v)) : ∃ t, exec i s = .next t ∧ s.wordStored t ea v :=
  ⟨s.memWrite ea v, h, s.wordStored_memWrite ea v⟩

/-! ## The obligations -/

/-- Settles O19: LD ends in `load` at the PC-relative address. -/
theorem ldLoadsAndSetsFlags : Obligations.LdLoadsAndSetsFlags := by
  unfold Obligations.LdLoadsAndSetsFlags
  refine ⟨fun _ => decode_eq_ld, fun s dr off9 ea hea => ?_⟩
  rw [← State.pcRel_eq_add_toInt] at hea
  subst hea
  exact exists_loaded_of_exec_eq (exec_ld dr off9 s)

/-- Settles O20: LDI is a load from the pointer word, in the state the pointer's MemRead leaves. -/
theorem ldiLoadsThroughThePointer : Obligations.LdiLoadsThroughThePointer := by
  unfold Obligations.LdiLoadsThroughThePointer
  refine ⟨fun _ => decode_eq_ldi, fun s dr off9 pa p hpa hp => ?_⟩
  rw [← State.pcRel_eq_add_toInt] at hpa
  subst hp hpa
  exact ⟨_, exec_ldi dr off9 s, (s.afterRead _).destWritten_load dr _,
    State.destWritten_load_indirect_plain dr⟩

/-- Settles O21: LDR ends in `load` at the address formed from the base before the write of DR. -/
theorem ldrLoadsFromBasePlusOffset : Obligations.LdrLoadsFromBasePlusOffset := by
  unfold Obligations.LdrLoadsFromBasePlusOffset
  refine ⟨fun _ => decode_eq_ldr, fun s dr base off6 ea hea => ?_⟩
  rw [← State.baseRel_eq_add_toInt] at hea
  subst hea
  exact exists_loaded_of_exec_eq (exec_ldr dr base off6 s)

/-- Settles O22: LEA ends in `writeDest` of the address, with no MemRead before it. -/
theorem leaLoadsTheAddressWithoutAccess : Obligations.LeaLoadsTheAddressWithoutAccess := by
  unfold Obligations.LeaLoadsTheAddressWithoutAccess
  refine ⟨fun _ => decode_eq_lea, fun s dr off9 => ?_⟩
  rw [← State.pcRel_eq_add_toInt]
  exact exists_destWritten_of_exec_eq (exec_lea dr off9 s)

/-- Settles O23: ST is one plain store at the PC-relative address. -/
theorem stStoresPcRelative : Obligations.StStoresPcRelative := by
  unfold Obligations.StStoresPcRelative
  refine ⟨fun _ => decode_eq_st, fun s sr off9 => ?_⟩
  rw [← State.pcRel_eq_add_toInt]
  exact exists_wordStored_of_exec_eq (exec_st sr off9 s)

/-- Settles O25: STR is one plain store at the base + offset address. -/
theorem strStoresAtBasePlusOffset : Obligations.StrStoresAtBasePlusOffset := by
  unfold Obligations.StrStoresAtBasePlusOffset
  refine ⟨fun _ => decode_eq_str, fun s sr base off6 => ?_⟩
  rw [← State.baseRel_eq_add_toInt]
  exact exists_wordStored_of_exec_eq (exec_str sr base off6 s)

end Sys2Proof.Machine
end

section
/-! PROOF. TRAP with an invalid vector (44_trap.md R91, R101): the words that decode to it, what its
execution answers, and the obligation O34. -/

namespace Sys2Proof

/-! ## Decoding -/

theorem decode_of_opcode_trap {w : Word} (h : Opcode.ofBits (field w 12 4) = .trap) :
    decode w = decodeTrap (field w 0 8) := by
  simp only [decode, h]

/-- The opcode alone selects TRAP; its row is then that of the vector (R60). -/
theorem decode_eq_decodeTrap {w : Word} (h : w &&& 0xF000#16 = 0xF000#16) :
    decode w = decodeTrap (field w 0 8) :=
  decode_of_opcode_trap (opcode_of_mask h (by decide))

theorem validVector_eq_false_iff (v : BitVec 8) :
    validVector v = false ↔ v.toNat < 0x20 ∨ 0x25 < v.toNat := by
  rw [← Bool.not_eq_true, validVector_iff]
  omega

theorem decode_eq_trapInvalid {w : Word} (h : w &&& 0xF000#16 = 0xF000#16)
    (hv : (field w 0 8).toNat < 0x20 ∨ 0x25 < (field w 0 8).toNat) :
    decode w = .trapInvalid (field w 0 8) :=
  (decode_eq_decodeTrap h).trans (decodeTrap_invalid ((validVector_eq_false_iff _).mpr hv))

end Sys2Proof

namespace Sys2Proof.Machine

/-! ## Execution -/

theorem exec_trapInvalid (vect : BitVec 8) (s : State) :
    exec (.trapInvalid vect) s = .next (s.raiseHalt (.badTrapVector vect)) := rfl

/-- A halt changes the status and the diagnostic channel, and no other field (R107). -/
theorem State.raiseHalt_frame (s : State) (r : HaltReason) :
    s.raiseHalt r = { s with status := .halted r, diag := (s.raiseHalt r).diag } := rfl

/-! ## The obligation -/

/-- Settles O34: the mask selects TRAP and the vector its invalid row, which is a halt alone: it has no
`trapLink` before the halt, so R7 stays as it was whatever `TRAP_LINKS_R7` is. -/
theorem invalidVectorHaltsBeforeAnyMutation : Obligations.InvalidVectorHaltsBeforeAnyMutation := by
  unfold Obligations.InvalidVectorHaltsBeforeAnyMutation
  exact ⟨fun _ => decode_eq_trapInvalid,
    fun s v => ⟨_, exec_trapInvalid v s, s.raiseHalt_frame (.badTrapVector v)⟩⟩

end Sys2Proof.Machine
end

section
/-! PROOF. The reserved opcodes RTI and RES (45_reserved.md R103, R104): the words that decode to them,
what their execution answers, and the obligation O35. -/

namespace Sys2Proof

/-! ## Decoding: the opcode alone selects each row -/

theorem decode_eq_rti {w : Word} (h : w &&& 0xF000#16 = 0x8000#16) : decode w = .rti := by
  have hop : Opcode.ofBits (field w 12 4) = .rti := opcode_of_mask h (by decide)
  simp only [decode, hop]

theorem decode_eq_res {w : Word} (h : w &&& 0xF000#16 = 0xD000#16) : decode w = .res := by
  have hop : Opcode.ofBits (field w 12 4) = .res := opcode_of_mask h (by decide)
  simp only [decode, hop]

end Sys2Proof

namespace Sys2Proof.Machine

/-! ## Execution -/

theorem exec_rti (s : State) : exec .rti s = .next (s.raiseHalt (.decodeError 0x8#4)) := rfl

theorem exec_res (s : State) : exec .res s = .next (s.raiseHalt (.decodeError 0xD#4)) := rfl

/-! ## The obligation -/

/-- Settles O35: the opcode alone selects RTI and RES, and each is a halt alone, whose frame
(`State.raiseHalt_frame`) is the status and the diagnostic channel. -/
theorem reservedOpcodesHaltWithDecodeError : Obligations.ReservedOpcodesHaltWithDecodeError := by
  unfold Obligations.ReservedOpcodesHaltWithDecodeError
  exact ⟨fun _ => decode_eq_rti,
    fun s => ⟨_, exec_rti s, s.raiseHalt_frame (.decodeError 0x8#4)⟩,
    fun _ => decode_eq_res,
    fun s => ⟨_, exec_res s, s.raiseHalt_frame (.decodeError 0xD#4)⟩⟩

end Sys2Proof.Machine
end

section
/-! PROOF. Where a load puts the words of an image (70_reset_and_hazards.md R125 to R127), and the
obligation O3. -/

namespace Sys2Proof.Machine

/-! ## The words of a big-endian stream (R126) -/

theorem highByte_append_lowByte (w : Word) : highByte w ++ lowByte w = w :=
  (BitVec.extractLsb'_append_extractLsb'_eq_extractLsb' (by decide)).trans w.extractLsb'_eq_self

theorem imageWords_bigEndian (ws : List Word) :
    imageWords (ws.flatMap fun w => [highByte w, lowByte w]) = ws := by
  induction ws with
  | nil => rfl
  | cons w ws ih =>
    simp only [List.flatMap_cons, List.cons_append, List.nil_append, imageWords,
      highByte_append_lowByte, ih]

/-! ## The words of memory after `writeWords` (R127) -/

theorem writeWords_cons (m : Memory) (base : Nat) (w : Word) (ws : List Word) :
    writeWords m base (w :: ws) = writeWords (Memory.write m base w) (base + 1) ws := rfl

/-- A word outside the run `base`, ..., `base + ws.length - 1` is as before. -/
theorem read_writeWords_outside {m : Memory} {base a : Nat} {ws : List Word}
    (h : a < base ∨ base + ws.length ≤ a) :
    Memory.read (writeWords m base ws) a = Memory.read m a := by
  induction ws generalizing m base with
  | nil => rfl
  | cons w ws ih =>
    rw [List.length_cons] at h
    rw [writeWords_cons, ih (by omega), Memory.read_write_other m w (by omega)]

/-- Word `k` of the run is word `k` of the list: the later writes of the run go above it. -/
theorem read_writeWords_inside {m : Memory} {base k : Nat} {ws : List Word} (h : k < ws.length) :
    Memory.read (writeWords m base ws) (base + k) = ws[k] := by
  induction ws generalizing m base k with
  | nil => exact absurd h (Nat.not_lt_zero k)
  | cons w ws ih =>
    rw [writeWords_cons]
    cases k with
    | zero =>
      rw [read_writeWords_outside (.inl (by omega))]
      exact Memory.read_write_self m base w
    | succ k =>
      have hshift : base + (k + 1) = base + 1 + k := by omega
      rw [hshift, List.getElem_cons_succ]
      exact ih (Nat.lt_of_succ_lt_succ h)

/-! ## The obligation -/

/-- Settles O3: the stream's words are the origin and the body, which `writeWords` places from
the origin on; as the run fits below 0x10000, no address of it wraps. -/
theorem loadPlacesTheImage : Obligations.LoadPlacesTheImage := by
  unfold Obligations.LoadPlacesTheImage
  intro s origin words hfit
  refine ⟨_, loadImage_eq_ok_iff.mpr
    ⟨_, origin, words, rfl, imageWords_bigEndian (origin :: words), hfit, rfl⟩, ?placed, ?kept, rfl⟩
  case placed =>
    intro k hk
    have haddr : (origin + BitVec.ofNat 16 k).toNat = origin.toNat + k := by
      rw [BitVec.toNat_add, BitVec.toNat_ofNat]
      omega
    rw [State.memPeek, haddr]
    exact read_writeWords_inside hk
  case kept => exact fun _ ha => read_writeWords_outside ha

end Sys2Proof.Machine
end

section
/-! PROOF. The encoder against the decoder (30_encoding.md R55 to R65): the pieces of an assembled
word, the arms of the decoder, the bits no field names and their standard values, the masks of the
table's rows, and the obligations O38 to O43. -/

namespace Sys2Proof

/-! ## The bits of an assembled word -/

theorem field_encode (i : Instr) {lo n : Nat} (h : lo + n ≤ 12) :
    field (encode i) lo n = i.operandBits.extractLsb' lo n := field_encode_operand h

theorem getLsbD_encode (i : Instr) {k : Nat} (h : k < 12) :
    (encode i).getLsbD k = i.operandBits.getLsbD k := by
  rw [encode, BitVec.getLsbD_append, if_pos h]

theorem decode_encode_trap (v : BitVec 8) : decode (encode (.trap v)) = decodeTrap v := by
  rw [decode_of_opcode_trap (opcode_encode _), field_encode _ (by decide)]
  exact congrArg decodeTrap BitVec.extractLsb'_append_eq_right

/-- The opcode selects the arm of the decoder, and each field it cuts out of the assembled word is
one piece of the operand bits. (`-index`: the pieces are typed at the literal width 12, which simp's
index does not match with a sum of widths.) -/
theorem decode_encode {i : Instr} (hwf : i.wellFormed = true) : decode (encode i) = i := by
  have hop := opcode_encode i
  cases i with
  | trap v => cases hwf
  | getc | out | puts | inChar | putsp | halt | ret | rti | res => decide
  | jmp base => revert hwf; cases base <;> decide
  | trapInvalid v =>
    have hv : validVector v = false := by simpa [Instr.wellFormed] using hwf
    exact (decode_encode_trap v).trans (decodeTrap_invalid hv)
  | br n z p off9 =>
    simp only [decode, hop, Instr.opcode]
    simp -index (disch := decide) only [getLsbD_encode, field_encode, Instr.operandBits,
      BitVec.getLsbD_append, BitVec.extractLsb'_append_eq_right, BitVec.getLsbD_ofBool]
    simp
  | _ =>
    simp only [decode, hop, Instr.opcode]
    simp -index (disch := decide) only [getLsbD_encode, field_encode, Instr.operandBits,
      BitVec.getLsbD_append, BitVec.extractLsb'_append_eq_of_add_le,
      BitVec.extractLsb'_append_eq_of_le, BitVec.extractLsb'_eq_self, Nat.reduceSub, Nat.sub_self,
      Reg.ofBits_bits] <;> rfl

/-! ## The arms of the decoder -/

/-- The arms of the decoder: the instruction a word is read as, with the opcode and the mode bit
that select it (R57, R59). -/
inductive DecodeArm (w : Word) : Instr → Prop where
  | addReg (hop : Opcode.ofBits (field w 12 4) = .add) (hmode : w.getLsbD 5 = false) :
    DecodeArm w (.addReg (Reg.ofBits (field w 9 3)) (Reg.ofBits (field w 6 3))
      (Reg.ofBits (field w 0 3)))
  | addImm (hop : Opcode.ofBits (field w 12 4) = .add) (hmode : w.getLsbD 5 = true) :
    DecodeArm w (.addImm (Reg.ofBits (field w 9 3)) (Reg.ofBits (field w 6 3)) (field w 0 5))
  | andReg (hop : Opcode.ofBits (field w 12 4) = .and) (hmode : w.getLsbD 5 = false) :
    DecodeArm w (.andReg (Reg.ofBits (field w 9 3)) (Reg.ofBits (field w 6 3))
      (Reg.ofBits (field w 0 3)))
  | andImm (hop : Opcode.ofBits (field w 12 4) = .and) (hmode : w.getLsbD 5 = true) :
    DecodeArm w (.andImm (Reg.ofBits (field w 9 3)) (Reg.ofBits (field w 6 3)) (field w 0 5))
  | not (hop : Opcode.ofBits (field w 12 4) = .not) :
    DecodeArm w (.not (Reg.ofBits (field w 9 3)) (Reg.ofBits (field w 6 3)))
  | br (hop : Opcode.ofBits (field w 12 4) = .br) :
    DecodeArm w (.br (w.getLsbD 11) (w.getLsbD 10) (w.getLsbD 9) (field w 0 9))
  | jmp (hop : Opcode.ofBits (field w 12 4) = .jmp) :
    DecodeArm w (decodeJmp (Reg.ofBits (field w 6 3)))
  | jsr (hop : Opcode.ofBits (field w 12 4) = .jsr) (hmode : w.getLsbD 11 = true) :
    DecodeArm w (.jsr (field w 0 11))
  | jsrr (hop : Opcode.ofBits (field w 12 4) = .jsr) (hmode : w.getLsbD 11 = false) :
    DecodeArm w (.jsrr (Reg.ofBits (field w 6 3)))
  | ld (hop : Opcode.ofBits (field w 12 4) = .ld) :
    DecodeArm w (.ld (Reg.ofBits (field w 9 3)) (field w 0 9))
  | ldi (hop : Opcode.ofBits (field w 12 4) = .ldi) :
    DecodeArm w (.ldi (Reg.ofBits (field w 9 3)) (field w 0 9))
  | ldr (hop : Opcode.ofBits (field w 12 4) = .ldr) :
    DecodeArm w (.ldr (Reg.ofBits (field w 9 3)) (Reg.ofBits (field w 6 3)) (field w 0 6))
  | lea (hop : Opcode.ofBits (field w 12 4) = .lea) :
    DecodeArm w (.lea (Reg.ofBits (field w 9 3)) (field w 0 9))
  | st (hop : Opcode.ofBits (field w 12 4) = .st) :
    DecodeArm w (.st (Reg.ofBits (field w 9 3)) (field w 0 9))
  | sti (hop : Opcode.ofBits (field w 12 4) = .sti) :
    DecodeArm w (.sti (Reg.ofBits (field w 9 3)) (field w 0 9))
  | str (hop : Opcode.ofBits (field w 12 4) = .str) :
    DecodeArm w (.str (Reg.ofBits (field w 9 3)) (Reg.ofBits (field w 6 3)) (field w 0 6))
  | trap (hop : Opcode.ofBits (field w 12 4) = .trap) : DecodeArm w (decodeTrap (field w 0 8))
  | rti (hop : Opcode.ofBits (field w 12 4) = .rti) : DecodeArm w .rti
  | res (hop : Opcode.ofBits (field w 12 4) = .res) : DecodeArm w .res

theorem decodeArm_decode (w : Word) : DecodeArm w (decode w) := by
  cases hop : Opcode.ofBits (field w 12 4) with
  | add =>
    rw [decode_of_opcode_add hop]
    cases hmode : w.getLsbD 5
    · exact .addReg hop hmode
    · exact .addImm hop hmode
  | and =>
    rw [decode_of_opcode_and hop]
    cases hmode : w.getLsbD 5
    · exact .andReg hop hmode
    · exact .andImm hop hmode
  | jsr =>
    rw [decode_of_opcode_jsr hop]
    cases hmode : w.getLsbD 11
    · exact .jsrr hop hmode
    · exact .jsr hop hmode
  | _ =>
    simp only [decode, hop]
    constructor
    exact hop

theorem decode_wellFormed (w : Word) : (decode w).wellFormed = true := by
  have harm := decodeArm_decode w
  generalize decode w = i at harm ⊢
  cases harm with
  | jmp _ => exact decodeJmp_wellFormed _
  | trap _ => exact decodeTrap_wellFormed _
  | _ => rfl

/-! ## The named bits of the word a decoded instruction is encoded to -/

theorem opcode_decodeJmp (base : Reg) : (decodeJmp base).opcode = .jmp := by cases base <;> rfl

theorem opcode_decodeTrap (v : BitVec 8) : (decodeTrap v).opcode = .trap := by revert v; decide

theorem opcode_decode (w : Word) : (decode w).opcode = Opcode.ofBits (field w 12 4) := by
  have harm := decodeArm_decode w
  generalize decode w = i at harm ⊢
  cases harm with
  | jmp hop => rw [hop, opcode_decodeJmp]
  | trap hop => rw [hop, opcode_decodeTrap]
  | _ => exact Eq.symm ‹_›

theorem operandBits_decodeJmp (base : Reg) :
    (decodeJmp base).operandBits = 0#3 ++ base.bits ++ 0#6 := by cases base <;> rfl

theorem ignoredBits_decodeJmp (base : Reg) : (decodeJmp base).ignoredBits = 0x0E3F#16 := by
  cases base <;> rfl

theorem operandBits_decodeTrap (v : BitVec 8) : (decodeTrap v).operandBits = 0#4 ++ v := by
  revert v; decide

theorem ignoredBits_decodeTrap (v : BitVec 8) : (decodeTrap v).ignoredBits = 0x0F00#16 := by
  revert v; decide

/-- Each named operand bit is a bit of one of the row's fields, or the mode bit that selects it. -/
theorem named_operandBits_decode (w : Word) {k : Nat} (hk : k < 12)
    (hnamed : (decode w).ignoredBits.getLsbD k = false) :
    (decode w).operandBits.getLsbD k = w.getLsbD k := by
  revert hnamed
  have harm := decodeArm_decode w
  generalize decode w = i at harm ⊢
  cases harm with
  | jmp hop =>
    rw [operandBits_decodeJmp, ignoredBits_decodeJmp]
    simp -index only [Reg.bits_ofBits, BitVec.getLsbD_append, field, BitVec.getLsbD_extractLsb']
    interval_cases k <;> simp
  | trap hop =>
    rw [operandBits_decodeTrap, ignoredBits_decodeTrap]
    simp -index only [BitVec.getLsbD_append, field, BitVec.getLsbD_extractLsb']
    interval_cases k <;> simp
  | _ =>
    simp -index only [Instr.operandBits, Instr.ignoredBits, Reg.bits_ofBits, BitVec.getLsbD_append,
      field, BitVec.getLsbD_extractLsb', BitVec.getLsbD_ofBool]
    interval_cases k <;> simp_all

theorem encode_decode_named (w : Word) :
    encode (decode w) &&& ~~~ (decode w).ignoredBits = w &&& ~~~ (decode w).ignoredBits := by
  apply BitVec.eq_of_getLsbD_eq
  intro k hk
  simp only [BitVec.getLsbD_and, BitVec.getLsbD_not, hk, decide_true, Bool.true_and]
  cases hu : (decode w).ignoredBits.getLsbD k with
  | true => simp
  | false =>
    congr 1
    by_cases h12 : k < 12
    · rw [getLsbD_encode _ h12, named_operandBits_decode w h12 hu]
    · rw [encode, opcode_decode, Opcode.bits_ofBits, BitVec.getLsbD_append, if_neg h12, field,
        BitVec.getLsbD_extractLsb']
      simp only [show 12 + (k - 12) = k by omega, show k - 12 < 4 by omega, decide_true,
        Bool.true_and]

/-! ## The words that differ in unnamed bits -/

theorem getLsbD_xor_of_mask {w m u : Word} (h : m &&& ~~~ u = 0#16) {k : Nat}
    (hk : (~~~ u).getLsbD k = true) : (w ^^^ m).getLsbD k = w.getLsbD k := by
  have hm : m.getLsbD k = false := (bit_of_mask h k hk).trans (by simp)
  rw [BitVec.getLsbD_xor, hm, Bool.xor_false]

theorem field_xor_of_mask {w m u : Word} (h : m &&& ~~~ u = 0#16) {lo n : Nat}
    (hk : ∀ i, i < n → (~~~ u).getLsbD (lo + i) = true) : field (w ^^^ m) lo n = field w lo n := by
  apply BitVec.eq_of_getLsbD_eq
  intro i hi
  simp only [field, BitVec.getLsbD_extractLsb', getLsbD_xor_of_mask h (hk i hi)]

theorem decode_xor_ignored {w m : Word} (h : m &&& ~~~ (decode w).ignoredBits = 0#16) :
    decode (w ^^^ m) = decode w := by
  have harm := decodeArm_decode w
  generalize decode w = i at harm h ⊢
  cases harm with
  | jmp hop =>
    rw [ignoredBits_decodeJmp] at h
    simp (disch := decide) only [decode, field_xor_of_mask h, hop]
  | trap hop =>
    rw [ignoredBits_decodeTrap] at h
    simp (disch := decide) only [decode, field_xor_of_mask h, hop]
  | _ hop =>
    simp only [Instr.ignoredBits] at h
    simp (disch := decide) only [decode, field_xor_of_mask h, getLsbD_xor_of_mask h, *, cond_true,
      cond_false]

/-! ## The masks of the table's rows -/

theorem field_one (w : Word) (lo : Nat) : field w lo 1 = BitVec.ofBool (w.getLsbD lo) := by
  apply BitVec.eq_of_getLsbD_eq
  intro i hi
  obtain rfl : i = 0 := by omega
  simp [field]

/-- Words with the same field have the same bits in it. -/
theorem getLsbD_eq_of_field_eq {w k : Word} {lo n i : Nat} (h : field w lo n = field k lo n)
    (hlo : lo ≤ i) (hhi : i < lo + n) : w.getLsbD i = k.getLsbD i := by
  have hbit : (field w lo n).getLsbD (i - lo) = (field k lo n).getLsbD (i - lo) := by rw [h]
  simpa [field, BitVec.getLsbD_extractLsb', show i - lo < n by omega,
    show lo + (i - lo) = i by omega] using hbit

/-- A row whose mask is the opcode and one field: a word meets it when both are the row's. -/
theorem and_eq_iff_fields {w m k : Word} (lo n : Nat)
    (hm : ∀ i, i < 16 → (m.getLsbD i = true ↔ 12 ≤ i ∨ lo ≤ i ∧ i < lo + n)) (hk : k &&& m = k)
    (hn : lo + n ≤ 16) :
    w &&& m = k ↔ field w 12 4 = field k 12 4 ∧ field w lo n = field k lo n := by
  constructor
  · intro h
    exact ⟨field_of_mask h 12 4 fun i hi => (hm _ (by omega)).mpr (.inl (by omega)),
      field_of_mask h lo n fun i hi => (hm _ (by omega)).mpr (.inr (by omega))⟩
  · rintro ⟨hop, hf⟩
    rw [← hk]
    apply BitVec.eq_of_getLsbD_eq
    intro i hi
    rw [BitVec.getLsbD_and, BitVec.getLsbD_and]
    cases hb : m.getLsbD i with
    | false => simp
    | true =>
      rcases (hm i hi).mp hb with h12 | ⟨hlo, hhi⟩
      · rw [getLsbD_eq_of_field_eq hop h12 hi]
      · rw [getLsbD_eq_of_field_eq hf hlo hhi]

theorem field_eq_bits_iff {w : Word} {o : Opcode} :
    field w 12 4 = o.bits ↔ Opcode.ofBits (field w 12 4) = o :=
  ⟨fun h => by rw [h, Opcode.ofBits_bits], fun h => by rw [← h, Opcode.bits_ofBits]⟩

/-- A row that the opcode alone selects. -/
theorem and_F000_eq_iff {w k : Word} {o : Opcode} (hk : k = o.bits ++ 0#12) :
    w &&& 0xF000#16 = k ↔ Opcode.ofBits (field w 12 4) = o := by
  obtain ⟨hfix, hop⟩ : k &&& 0xF000#16 = k ∧ field k 12 4 = o.bits := by
    subst hk; cases o <;> decide
  rw [and_eq_iff_fields 12 4 (by decide) hfix (by decide), and_self, hop, field_eq_bits_iff]

/-- A row that the opcode and bit 5 select. -/
theorem and_F020_eq_iff {w k : Word} {o : Opcode} {b : Bool}
    (hk : k = o.bits ++ 0#6 ++ BitVec.ofBool b ++ 0#5) :
    w &&& 0xF020#16 = k ↔ Opcode.ofBits (field w 12 4) = o ∧ w.getLsbD 5 = b := by
  obtain ⟨hfix, hop, hmode⟩ :
      k &&& 0xF020#16 = k ∧ field k 12 4 = o.bits ∧ field k 5 1 = BitVec.ofBool b := by
    subst hk; cases o <;> cases b <;> decide
  rw [and_eq_iff_fields 5 1 (by decide) hfix (by decide), hop, hmode, field_eq_bits_iff, field_one,
    BitVec.ofBool_eq_iff_eq]

/-- A row that the opcode and bit 11 select. -/
theorem and_F800_eq_iff {w k : Word} {o : Opcode} {b : Bool}
    (hk : k = o.bits ++ BitVec.ofBool b ++ 0#11) :
    w &&& 0xF800#16 = k ↔ Opcode.ofBits (field w 12 4) = o ∧ w.getLsbD 11 = b := by
  obtain ⟨hfix, hop, hmode⟩ :
      k &&& 0xF800#16 = k ∧ field k 12 4 = o.bits ∧ field k 11 1 = BitVec.ofBool b := by
    subst hk; cases o <;> cases b <;> decide
  rw [and_eq_iff_fields 11 1 (by decide) hfix (by decide), hop, hmode, field_eq_bits_iff, field_one,
    BitVec.ofBool_eq_iff_eq]

/-- The row of a valid vector fixes the opcode and the vector. -/
theorem table_decodeTrap_valid : ∀ {v : BitVec 8}, validVector v = true →
    (decodeTrap v).tableMask = 0xF0FF#16 ∧
    (decodeTrap v).tableMatch &&& 0xF0FF#16 = (decodeTrap v).tableMatch ∧
    field (decodeTrap v).tableMatch 12 4 = Opcode.trap.bits ∧
    field (decodeTrap v).tableMatch 0 8 = v := by decide

theorem decode_row (w : Word) : w &&& (decode w).tableMask = (decode w).tableMatch := by
  have harm := decodeArm_decode w
  generalize decode w = i at harm ⊢
  cases harm with
  | addReg hop hmode | addImm hop hmode | andReg hop hmode | andImm hop hmode =>
    exact (and_F020_eq_iff (by rfl)).mpr ⟨hop, hmode⟩
  | jsr hop hmode | jsrr hop hmode =>
    exact (and_F800_eq_iff (by rfl)).mpr ⟨hop, hmode⟩
  | jmp hop =>
    rw [decodeJmp_eq_ite]
    split
    · next hbase =>
      have hbits : field w 6 3 = 7#3 := by rw [← Reg.bits_ofBits (field w 6 3), hbase]; rfl
      exact (and_eq_iff_fields 6 3 (by decide) (by decide) (by decide)).mpr
        ⟨field_eq_bits_iff.mpr hop, hbits⟩
    · exact (and_F000_eq_iff (by rfl)).mpr hop
  | trap hop =>
    cases hv : validVector (field w 0 8) with
    | true =>
      obtain ⟨hmask, hmatch, htop, hvect⟩ := table_decodeTrap_valid hv
      rw [hmask]
      exact (and_eq_iff_fields 0 8 (by decide) hmatch (by decide)).mpr
        ⟨(field_eq_bits_iff.mpr hop).trans htop.symm, hvect.symm⟩
    | false =>
      rw [decodeTrap_invalid hv]
      exact (and_F000_eq_iff (by rfl)).mpr hop
  | _ hop =>
    exact (and_F000_eq_iff (by rfl)).mpr hop

/-! ## The standard values of the unnamed bits (R57, R62) -/

/-- A word with a "u" bit off its standard value, row by row of R57: the table of the obligation O45
under a name, so that lemmas can be stated of it. -/
def NonStandard (w : Word) : Prop :=
  (w &&& 0xF020#16 = 0x1000#16 ∧ w &&& 0x0018#16 ≠ 0x0000#16) ∨
  (w &&& 0xF020#16 = 0x5000#16 ∧ w &&& 0x0018#16 ≠ 0x0000#16) ∨
  (w &&& 0xF000#16 = 0x9000#16 ∧ w &&& 0x003F#16 ≠ 0x003F#16) ∨
  (w &&& 0xF000#16 = 0xC000#16 ∧ w &&& 0x0E3F#16 ≠ 0x0000#16) ∨
  (w &&& 0xF800#16 = 0x4000#16 ∧ w &&& 0x063F#16 ≠ 0x0000#16) ∨
  (w &&& 0xF000#16 = 0xF000#16 ∧ w &&& 0x0F00#16 ≠ 0x0000#16) ∨
  (w &&& 0xF000#16 = 0x8000#16 ∧ w &&& 0x0FFF#16 ≠ 0x0000#16)

/-- The same rows by the opcode and the mode bit that select them. -/
theorem nonStandard_iff (w : Word) : NonStandard w ↔
    ((Opcode.ofBits (field w 12 4) = .add ∧ w.getLsbD 5 = false) ∧ w &&& 0x0018#16 ≠ 0x0000#16) ∨
    ((Opcode.ofBits (field w 12 4) = .and ∧ w.getLsbD 5 = false) ∧ w &&& 0x0018#16 ≠ 0x0000#16) ∨
    (Opcode.ofBits (field w 12 4) = .not ∧ w &&& 0x003F#16 ≠ 0x003F#16) ∨
    (Opcode.ofBits (field w 12 4) = .jmp ∧ w &&& 0x0E3F#16 ≠ 0x0000#16) ∨
    ((Opcode.ofBits (field w 12 4) = .jsr ∧ w.getLsbD 11 = false) ∧ w &&& 0x063F#16 ≠ 0x0000#16) ∨
    (Opcode.ofBits (field w 12 4) = .trap ∧ w &&& 0x0F00#16 ≠ 0x0000#16) ∨
    (Opcode.ofBits (field w 12 4) = .rti ∧ w &&& 0x0FFF#16 ≠ 0x0000#16) := by
  have hadd := and_F020_eq_iff (w := w) (k := 0x1000#16) (o := .add) (b := false) rfl
  have hand := and_F020_eq_iff (w := w) (k := 0x5000#16) (o := .and) (b := false) rfl
  have hnot := and_F000_eq_iff (w := w) (k := 0x9000#16) (o := .not) rfl
  have hjmp := and_F000_eq_iff (w := w) (k := 0xC000#16) (o := .jmp) rfl
  have hjsrr := and_F800_eq_iff (w := w) (k := 0x4000#16) (o := .jsr) (b := false) rfl
  have htrap := and_F000_eq_iff (w := w) (k := 0xF000#16) (o := .trap) rfl
  have hrti := and_F000_eq_iff (w := w) (k := 0x8000#16) (o := .rti) rfl
  rw [NonStandard, hadd, hand, hnot, hjmp, hjsrr, htrap, hrti]

/-- R57's standard value of the checked bits of an instruction's word: ones for NOT, else zeros. -/
def Instr.standardValue : Instr → Word
  | .not _ _ => 0x003F#16
  | _ => 0x0000#16

theorem encode_and_checkedBits (i : Instr) : encode i &&& i.checkedBits = i.standardValue := by
  apply BitVec.eq_of_getLsbD_eq
  intro k hk
  cases i <;>
    simp -index only [encode, Instr.opcode, Opcode.bits, Instr.operandBits, Instr.checkedBits,
      Instr.ignoredBits, Instr.standardValue, BitVec.getLsbD_and, BitVec.getLsbD_append,
      reduceCtorEq, if_true, if_false] <;>
    interval_cases k <;> simp

theorem standardBits_eq_true_iff (w : Word) :
    standardBits w = true ↔ w &&& (decode w).checkedBits = (decode w).standardValue := by
  rw [standardBits, encode_and_checkedBits, beq_iff_eq]

theorem checkedBits_decodeJmp (base : Reg) : (decodeJmp base).checkedBits = 0x0E3F#16 := by
  cases base <;> rfl

theorem standardValue_decodeJmp (base : Reg) : (decodeJmp base).standardValue = 0x0000#16 := by
  cases base <;> rfl

theorem checkedBits_decodeTrap (v : BitVec 8) : (decodeTrap v).checkedBits = 0x0F00#16 := by
  revert v; decide

theorem standardValue_decodeTrap (v : BitVec 8) : (decodeTrap v).standardValue = 0x0000#16 := by
  revert v; decide

theorem standardBits_eq_true_iff_not_nonStandard (w : Word) :
    standardBits w = true ↔ ¬ NonStandard w := by
  rw [standardBits_eq_true_iff, nonStandard_iff]
  have harm := decodeArm_decode w
  generalize decode w = i at harm ⊢
  cases harm with
  | jmp hop => simp [hop, checkedBits_decodeJmp, standardValue_decodeJmp]
  | trap hop => simp [hop, checkedBits_decodeTrap, standardValue_decodeTrap]
  | addReg hop hmode | addImm hop hmode | andReg hop hmode | andImm hop hmode | jsr hop hmode
  | jsrr hop hmode =>
    simp only [hop, hmode, Instr.checkedBits, Instr.ignoredBits, Instr.standardValue]
    simp
  | _ hop => simp [hop, Instr.checkedBits, Instr.ignoredBits, Instr.standardValue]

/-! ## The two rows that are other spellings (R80, R91) -/

theorem encode_decodeTrap (v : BitVec 8) : encode (decodeTrap v) = encode (.trap v) := by
  revert v; decide

/-- The word of an instruction is the word of what it decodes to: the generic TRAP and JMP R7 have
the words of the rows they stand for. -/
theorem encode_decode_encode (i : Instr) : encode (decode (encode i)) = encode i := by
  cases hwf : i.wellFormed with
  | true => rw [decode_encode hwf]
  | false =>
    cases i with
    | jmp base => revert hwf; cases base <;> decide
    | trap v => rw [decode_encode_trap, encode_decodeTrap]
    | trapInvalid v =>
      show encode (decode (encode (.trap v))) = encode (.trap v)
      rw [decode_encode_trap, encode_decodeTrap]
    | _ => cases hwf

theorem standardBits_encode (i : Instr) : standardBits (encode i) = true := by
  rw [standardBits, encode_decode_encode, beq_self_eq_true]

/-- The words of a valid vector: the mask fixes the opcode and the vector (R60). -/
theorem decode_eq_of_vector {w k : Word} (h : w &&& 0xF0FF#16 = k)
    (hk : field k 12 4 = Opcode.trap.bits) : decode w = decodeTrap (field k 0 8) := by
  have hop : Opcode.ofBits (field w 12 4) = .trap :=
    field_eq_bits_iff.mp ((field_of_mask h 12 4 (by decide)).trans hk)
  rw [decode_of_opcode_trap hop, field_of_mask h 0 8 (by decide)]

end Sys2Proof

namespace Sys2Proof.Machine

/-! ## The obligations -/

/-- Settles O38: the opcode selects the arm, and each field of the arm is one piece of the word. -/
theorem decodeOfEncodeIsTheInstruction : Obligations.DecodeOfEncodeIsTheInstruction := by
  unfold Obligations.DecodeOfEncodeIsTheInstruction
  exact fun i hwf => decode_encode hwf

/-- Settles O39, bit by bit: the opcode bits, and the operand bits that the arm names. -/
theorem encodeOfDecodeKeepsTheNamedBits : Obligations.EncodeOfDecodeKeepsTheNamedBits := by
  unfold Obligations.EncodeOfDecodeKeepsTheNamedBits
  exact encode_decode_named

/-- Settles O40: every field and mode bit of the arm is outside the mask of the ignored bits. -/
theorem unnamedBitsAreIgnored : Obligations.UnnamedBitsAreIgnored := by
  unfold Obligations.UnnamedBitsAreIgnored
  exact fun w m hm => decode_xor_ignored hm

/-- Settles O41: the arm that a word is read by fixes the bits of its row's mask. -/
theorem everyWordDecodesToItsTableRow : Obligations.EveryWordDecodesToItsTableRow := by
  unfold Obligations.EveryWordDecodesToItsTableRow
  exact fun w => ⟨decode_wellFormed w, decode_row w⟩

/-- Settles O42: JMP R7 and RET are one jump, and `execTrap_eq` is the generic TRAP row. -/
theorem aliasRowsMeanWhatTheirWordsDecodeTo : Obligations.AliasRowsMeanWhatTheirWordsDecodeTo := by
  unfold Obligations.AliasRowsMeanWhatTheirWordsDecodeTo
  exact fun s => ⟨⟨by decide, rfl⟩, fun v => ⟨decode_encode_trap v, execTrap_eq v s⟩⟩

/-- Settles O43: nine closed words. -/
theorem wordsOfTheSpecDecode : Obligations.WordsOfTheSpecDecode := by
  unfold Obligations.WordsOfTheSpecDecode
  decide

end Sys2Proof.Machine
end

section
/-! PROOF. The constructed machine and the load failures (10_state.md R36; 70_reset_and_hazards.md
R128), sign extension (00_scope.md R10), and the obligations O2, O4, O6 and O7. -/

namespace Sys2Proof.Machine

/-! ## The words of a stream (R126, R128) -/

theorem imageWords_length (bytes : List Byte) : (imageWords bytes).length = bytes.length / 2 := by
  induction bytes using imageWords.induct with
  | case1 hi lo rest ih => simp only [imageWords, List.length_cons, ih]; omega
  | case2 b => simp [imageWords]
  | case3 => rfl

/-- A byte after an even number of bytes forms no word. -/
theorem imageWords_append_odd {bytes : List Byte} (odd : Byte) (heven : bytes.length % 2 = 0) :
    imageWords (bytes ++ [odd]) = imageWords bytes := by
  induction bytes using imageWords.induct with
  | case1 hi lo rest ih =>
    simp only [List.length_cons] at heven
    simp only [List.cons_append, imageWords, ih (by omega)]
  | case2 b => cases heven
  | case3 => rfl

theorem loadImage_noOrigin {bytes : List Byte} (s : State) (h : bytes.length < 2) :
    loadImage (some bytes) s = .error .noOrigin := by
  have hwords : imageWords bytes = [] := by
    rw [← List.length_eq_zero_iff, imageWords_length]; omega
  simp only [loadImage, hwords]

theorem loadImage_overrun {hi lo : Byte} {rest : List Byte} (s : State)
    (h : 0x10000 < hi.toNat * 256 + lo.toNat + rest.length / 2) :
    loadImage (some (hi :: lo :: rest)) s = .error .overrun := by
  have horigin : (hi ++ lo).toNat = hi.toNat * 256 + lo.toNat := by
    rw [BitVec.toNat_append, ← Nat.shiftLeft_add_eq_or_of_lt lo.isLt, Nat.shiftLeft_eq]
  simp only [loadImage, imageWords, imageWords_length]
  exact if_pos (by rw [horigin]; exact h)

theorem loadImage_append_odd {bytes : List Byte} (s : State) (odd : Byte)
    (heven : bytes.length % 2 = 0) :
    loadImage (some (bytes ++ [odd])) s = loadImage (some bytes) s := by
  simp only [loadImage, imageWords_append_odd odd heven]

/-! ## Sign extension (R10) -/

theorem toInt_sext {n : Nat} (v : BitVec n) (h : n ≤ 16) : (sext v).toInt = v.toInt :=
  BitVec.toInt_signExtend_of_le h

/-- The source's procedure ORs ones in above the field exactly when its sign bit is set; below
`2 ^ n` nothing else stands there. -/
theorem signExtendSource_eq_sext {n : Nat} {v : Word} (h1 : 1 ≤ n) (h16 : n ≤ 16)
    (hv : v.toNat < 2 ^ n) : signExtendSource v n = sext (v.setWidth n) := by
  have hsign : (v.setWidth n).msb = v.getLsbD (n - 1) := by
    rw [BitVec.msb_eq_getLsbD_last, BitVec.getLsbD_setWidth, decide_eq_true (by omega),
      Bool.true_and]
  have habove : ∀ i, n ≤ i → v.getLsbD i = false := fun i hni =>
    Nat.testBit_lt_two_pow (Nat.lt_of_lt_of_le hv (Nat.pow_le_pow_right (by decide) hni))
  have hones : ∀ i, i < 16 → (0xFFFF#16 <<< n).getLsbD i = !decide (i < n) := fun i hi => by
    rw [show 0xFFFF#16 = BitVec.allOnes 16 from rfl, BitVec.getLsbD_shiftLeft,
      BitVec.getLsbD_allOnes, decide_eq_true hi, decide_eq_true (by omega : i - n < 16),
      Bool.true_and, Bool.and_true]
  apply BitVec.eq_of_getLsbD_eq
  intro i hi
  rw [sext, BitVec.getLsbD_signExtend, hsign, signExtendSource, decide_eq_true hi, Bool.true_and]
  by_cases hin : i < n
  · cases v.getLsbD (n - 1) <;> simp [hin]
  · cases v.getLsbD (n - 1) with
    | false => simpa [hin] using habove i (by omega)
    | true =>
      rw [if_pos rfl, if_neg hin, BitVec.getLsbD_or, hones i hi, decide_eq_false hin,
        Bool.not_false, Bool.or_true]

/-! ## The obligations -/

/-- Settles O2: every field of the constructed state is the parameter or the constant of its row. -/
theorem constructedStateHasTheSpecsValues : Obligations.ConstructedStateHasTheSpecsValues := by
  unfold Obligations.ConstructedStateHasTheSpecsValues
  exact fun cfg => ⟨fun _ => rfl, rfl, fun _ => rfl, rfl, rfl, rfl, fun r => by cases r <;> rfl,
    rfl, rfl, rfl⟩

/-- Settles O4: the number of words of a stream is half its number of bytes, rounded down. -/
theorem loadFailuresAndTheOddByte : Obligations.LoadFailuresAndTheOddByte := by
  unfold Obligations.LoadFailuresAndTheOddByte
  exact fun s => ⟨rfl, fun _ => loadImage_noOrigin s, fun _ _ _ => loadImage_overrun s,
    fun _ odd => loadImage_append_odd s odd⟩

/-- Settles O6, flag by flag. -/
theorem branchTestOnCondNumber : Obligations.BranchTestOnCondNumber := by
  unfold Obligations.BranchTestOnCondNumber
  intro n z p f
  refine ⟨branchTaken_iff_flagCode n z p f, ?_⟩
  cases f <;> decide

/-- Settles O7: `sext` is the library's sign extension, and the source's procedure agrees with it
bit by bit. -/
theorem signExtensionKeepsTheSignedValue : Obligations.SignExtensionKeepsTheSignedValue := by
  unfold Obligations.SignExtensionKeepsTheSignedValue
  exact fun n h1 h16 v => ⟨toInt_sext _ h16, signExtendSource_eq_sext h1 h16⟩

end Sys2Proof.Machine
end

section
/-! PROOF. The poll of the keyboard (20_memory.md R39, R42, R45), memory as the list of its words
(R37), the fetch after a store (R54), the instructions JSRR and STI (42_control.md R82;
43_load_store.md R89), and the obligations O14, O15, O17, O18, O24 and O26. -/

namespace Sys2Proof

theorem decode_eq_jsrr {w : Word} (h : w &&& 0xF800#16 = 0x4000#16) :
    decode w = .jsrr (Reg.ofBits (field w 6 3)) := by
  have hmode : w.getLsbD 11 = false := bit_of_mask h 11 rfl
  rw [decode_of_opcode_jsr (opcode_of_mask h (by decide)), hmode, cond_false]

theorem decode_eq_sti {w : Word} (h : w &&& 0xF000#16 = 0xB000#16) :
    decode w = .sti (Reg.ofBits (field w 9 3)) (field w 0 9) := by
  have hop : Opcode.ofBits (field w 12 4) = .sti := opcode_of_mask h (by decide)
  simp only [decode, hop]

end Sys2Proof

namespace Sys2Proof.Machine

/-! ## The poll -/

/-- A poll with a character there: bit 15 of KBSR set, the character in KBDR and consumed. -/
theorem State.poll_of_key {s : State} {c : Byte} {rest : List HostInput}
    (h : s.input = .key c :: rest) :
    s.poll = { s with
      mem := Memory.write (Memory.write s.mem s.cfg.kbsrAddr.toNat
        (s.memPeek s.cfg.kbsrAddr ||| 0x8000#16)) s.cfg.kbdrAddr.toNat (c.setWidth 16)
      input := rest
      log := s.log ++ [.peekReady true, .readChar c] } := by
  simp [State.poll, h, State.issue, State.memWrite]

/-- A poll with no character there: bit 15 of KBSR cleared, a "not ready" mark used up. -/
theorem State.poll_of_noKey {s : State} (h : s.input = [] ∨ ∃ rest, s.input = .quiet :: rest) :
    s.poll = { s with
      mem := Memory.write s.mem s.cfg.kbsrAddr.toNat (s.memPeek s.cfg.kbsrAddr &&& 0x7FFF#16)
      input := s.input.tail
      log := s.log ++ [.peekReady false] } := by
  rcases h with h | ⟨rest, h⟩
  · simp [State.poll, h, State.issue, State.memWrite]
  · simp [State.poll, h, State.issue, State.memWrite]

section
variable {s : State} (hdev : s.cfg.kbdrAddr ≠ s.cfg.kbsrAddr) {c : Byte} {rest : List HostInput}
  (h : s.input = .key c :: rest)
include h

theorem State.memPeek_poll_kbdr_of_key : s.poll.memPeek s.cfg.kbdrAddr = c.setWidth 16 := by
  rw [State.poll_of_key h]
  exact Memory.read_write_self _ _ _

theorem State.memPeek_poll_other_of_key {a : Word} (ha : a ≠ s.cfg.kbsrAddr)
    (hd : a ≠ s.cfg.kbdrAddr) : s.poll.memPeek a = s.memPeek a := by
  rw [State.poll_of_key h, State.memPeek,
    Memory.read_write_other _ _ (BitVec.toNat_ne_iff_ne.mpr hd),
    Memory.read_write_other _ _ (BitVec.toNat_ne_iff_ne.mpr ha), State.memPeek]

include hdev

theorem State.memPeek_poll_kbsr_of_key :
    s.poll.memPeek s.cfg.kbsrAddr = s.memPeek s.cfg.kbsrAddr ||| 0x8000#16 := by
  rw [State.poll_of_key h, State.memPeek,
    Memory.read_write_other _ _ (BitVec.toNat_ne_iff_ne.mpr hdev.symm), Memory.read_write_self]

end

section
variable {s : State} (h : s.input = [] ∨ ∃ rest, s.input = .quiet :: rest)
include h

theorem State.memPeek_poll_kbsr_of_noKey :
    s.poll.memPeek s.cfg.kbsrAddr = s.memPeek s.cfg.kbsrAddr &&& 0x7FFF#16 := by
  rw [State.poll_of_noKey h]
  exact Memory.read_write_self _ _ _

theorem State.memPeek_poll_other_of_noKey {a : Word} (ha : a ≠ s.cfg.kbsrAddr) :
    s.poll.memPeek a = s.memPeek a := by
  rw [State.poll_of_noKey h]
  exact Memory.read_write_other _ _ (BitVec.toNat_ne_iff_ne.mpr ha)

end

/-- Whatever the host answers, a poll changes no other word than KBSR and KBDR. -/
theorem State.memPeek_poll_other (s : State) {a : Word} (ha : a ≠ s.cfg.kbsrAddr)
    (hd : a ≠ s.cfg.kbdrAddr) : s.poll.memPeek a = s.memPeek a := by
  cases h : s.input with
  | nil => exact State.memPeek_poll_other_of_noKey (.inl h) ha
  | cons answer rest =>
    cases answer with
    | quiet => exact State.memPeek_poll_other_of_noKey (.inr ⟨rest, h⟩) ha
    | key c => exact State.memPeek_poll_other_of_key h ha hd

/-! ## Memory as its words -/

/-- Every address up to the lower bound of a canonical list reads as zero. -/
theorem Memory.read_of_le {m : Memory} {l a : Nat} (hm : Memory.wfAbove m (some l) = true)
    (ha : a ≤ l) : Memory.read m a = 0#16 := by
  induction m generalizing l with
  | nil => rfl
  | cons c m ih =>
    obtain ⟨b, w⟩ := c
    obtain ⟨hb, -, -, hrest⟩ := Memory.wfAbove_cons.mp hm
    have hlt : l < b := hb l rfl
    rw [Memory.read, if_neg (by omega)]
    exact ih hrest (by omega)

/-- Two canonical lists that read alike are equal: their first cells are, as neither holds a zero
word and every earlier address reads as zero, and their tails read alike. -/
theorem Memory.eq_of_read_eq {m k : Memory} {lo lo' : Option Nat} (hm : Memory.wfAbove m lo = true)
    (hk : Memory.wfAbove k lo' = true)
    (h : ∀ a, a < 65536 → Memory.read m a = Memory.read k a) : m = k := by
  induction m generalizing k lo lo' with
  | nil =>
    cases k with
    | nil => rfl
    | cons c k =>
      obtain ⟨b, w⟩ := c
      obtain ⟨-, hb, hw, -⟩ := Memory.wfAbove_cons.mp hk
      exact absurd (by simpa [Memory.read] using (h b hb).symm) hw
  | cons c m ih =>
    obtain ⟨b, w⟩ := c
    obtain ⟨-, hb, hw, hmtail⟩ := Memory.wfAbove_cons.mp hm
    cases k with
    | nil => exact absurd (by simpa [Memory.read] using h b hb) hw
    | cons d k =>
      obtain ⟨b', w'⟩ := d
      obtain ⟨-, hb', hw', hktail⟩ := Memory.wfAbove_cons.mp hk
      have hbb : b = b' := by
        by_contra hne
        rcases Nat.lt_or_gt_of_ne hne with hlt | hlt
        · have hread := h b hb
          simp only [Memory.read, if_true, if_neg hne] at hread
          exact hw (hread.trans (Memory.read_of_le hktail (by omega)))
        · have hread := h b' hb'
          simp only [Memory.read, if_true, if_neg (Ne.symm hne)] at hread
          exact hw' (hread.symm.trans (Memory.read_of_le hmtail (by omega)))
      subst hbb
      have hww : w = w' := by simpa [Memory.read] using h b hb
      subst hww
      refine congrArg (List.cons (b, w)) (ih hmtail hktail fun a ha => ?_)
      by_cases hab : a ≤ b
      · rw [Memory.read_of_le hmtail hab, Memory.read_of_le hktail hab]
      · have hread := h a ha
        simpa only [Memory.read, if_neg (by omega : a ≠ b)] using hread

/-! ## JSRR and STI -/

theorem exec_jsrr (base : Reg) (s : State) :
    exec (.jsrr base) s = .next ((s.setReg .r7 s.pc).setPC ((s.setReg .r7 s.pc).reg base)) := rfl

theorem exec_sti (sr : Reg) (off9 : BitVec 9) (s : State) :
    exec (.sti sr off9) s = .next ((s.afterRead (s.pcRel off9)).memWrite
      (s.memRead (s.pcRel off9)) (s.reg sr)) := rfl

/-! ## The fetch after a store (R54) -/

/-- A fetch of the word just stored at PC, away from KBSR. -/
theorem State.fetch_memWrite_pc {s : State} (h : s.pc ≠ s.cfg.kbsrAddr) (v : Word) :
    (s.memWrite s.pc v).fetch.ir = v ∧ (s.memWrite s.pc v).fetch.pc = s.pc + 1#16 :=
  ⟨(State.memRead_plain (s := s.memWrite s.pc v) h).trans (s.memPeek_memWrite_self _ _), rfl⟩

/-! ## The obligations -/

/-- Settles O14: the base is read after the link, so a base of R7 is the old PC. -/
theorem jsrrLinksThenReadsTheBase : Obligations.JsrrLinksThenReadsTheBase := by
  unfold Obligations.JsrrLinksThenReadsTheBase
  refine ⟨fun _ => decode_eq_jsrr, fun s base => ⟨_, exec_jsrr base s, ?_, ?_, ?_, ?_, rfl⟩⟩
  · rw [State.setPC_reg, State.reg_setReg_self]
  · exact fun hbase => s.reg_setReg_other _ hbase
  · rintro rfl
    exact s.reg_setReg_self .r7 s.pc
  · intro r hr
    rw [State.setPC_reg, s.reg_setReg_other _ hr]

/-- Settles O15: away from KBSR a MemRead is plain; at KBSR it is the poll, by the host's answer. -/
theorem memReadPollsExactlyAtKbsr : Obligations.MemReadPollsExactlyAtKbsr := by
  unfold Obligations.MemReadPollsExactlyAtKbsr
  intro s hdev
  refine ⟨fun a ha => ⟨State.afterRead_plain ha, State.memRead_plain ha⟩, rfl, ?_, ?_⟩
  · intro c rest h
    rw [State.afterRead_kbsr]
    refine ⟨State.memPeek_poll_kbsr_of_key hdev h, State.memPeek_poll_kbdr_of_key h,
      fun a => State.memPeek_poll_other_of_key h, ?_, ?_, ?_⟩ <;> rw [State.poll_of_key h]
  · intro h
    rw [State.afterRead_kbsr]
    exact ⟨State.memPeek_poll_kbsr_of_noKey h, fun a => State.memPeek_poll_other_of_noKey h,
      by rw [State.poll_of_noKey h]⟩

/-- Settles O17: the second poll takes the second character, in the state after the first. -/
theorem everyKbsrReadConsumesACharacter : Obligations.EveryKbsrReadConsumesACharacter := by
  unfold Obligations.EveryKbsrReadConsumesACharacter
  intro s c d rest _ h
  have hcfg : (s.afterRead s.cfg.kbsrAddr).cfg = s.cfg := s.afterRead_cfg _
  have hfirst := State.poll_of_key h
  have hinput : s.poll.input = .key d :: rest := by rw [hfirst]
  have hsecond := State.poll_of_key hinput
  have hkbdr := State.memPeek_poll_kbdr_of_key hinput
  rw [State.poll_cfg] at hkbdr
  have htwice : (s.afterRead s.cfg.kbsrAddr).afterRead s.cfg.kbsrAddr = s.poll.poll := by
    rw [State.afterRead_kbsr, ← State.afterRead_kbsr s.poll, State.poll_cfg]
  rw [htwice]
  refine ⟨hkbdr, by rw [hsecond], ?_⟩
  rw [hsecond, hfirst]
  simp

/-- Settles O18, by induction on one list: the first cells agree because no list has a zero word. -/
theorem canonicalMemoryIsItsWords : Obligations.CanonicalMemoryIsItsWords := by
  unfold Obligations.CanonicalMemoryIsItsWords
  intro m k hm hk h
  refine Memory.eq_of_read_eq hm hk fun a ha => ?_
  simpa [BitVec.toNat_ofNat, Nat.mod_eq_of_lt ha] using h (BitVec.ofNat 16 a)

/-- Settles O24: STI is one plain store, in the state the pointer's MemRead leaves. -/
theorem stiStoresThroughThePointer : Obligations.StiStoresThroughThePointer := by
  unfold Obligations.StiStoresThroughThePointer
  refine ⟨fun _ => decode_eq_sti, fun s sr off9 pa hpa => ?_⟩
  rw [← State.pcRel_eq_add_toInt] at hpa
  subst hpa
  have hstored :=
    (s.afterRead (s.pcRel off9)).wordStored_memWrite (s.memRead (s.pcRel off9)) (s.reg sr)
  refine ⟨_, exec_sti sr off9 s, hstored, fun hplain => ?_⟩
  rwa [State.afterRead_plain hplain, State.memRead_plain hplain] at hstored ⊢

/-- Settles O26: all three stores end in a plain store at PC, in a state with the same PC and
parameters. -/
theorem theNextFetchSeesTheStore : Obligations.TheNextFetchSeesTheStore := by
  unfold Obligations.TheNextFetchSeesTheStore
  rintro s t i sr hpc (⟨off9, rfl⟩ | ⟨off9, rfl⟩ | ⟨base, off6, rfl⟩) haddr hexec
  · obtain rfl := Host.Outcome.next.inj hexec
    rw [Option.some.inj haddr]
    exact State.fetch_memWrite_pc hpc _
  · obtain rfl := Host.Outcome.next.inj ((exec_sti sr off9 s).symm.trans hexec)
    have hpointer : s.memRead (s.pcRel off9) = (s.afterRead (s.pcRel off9)).pc :=
      (Option.some.inj haddr).trans (s.afterRead_pc _).symm
    rw [hpointer, ← s.afterRead_pc (s.pcRel off9)]
    exact State.fetch_memWrite_pc (by rwa [State.afterRead_pc, State.afterRead_cfg]) _
  · obtain rfl := Host.Outcome.next.inj hexec
    rw [Option.some.inj haddr]
    exact State.fetch_memWrite_pc hpc _

end Sys2Proof.Machine
end

section
/-! PROOF. Which routine each state of the trap handler belongs to (44_trap.md R94), and what the
run of a routine keeps: R0, COND and the input where it reads no character, the status where it is
not HALT's. -/

namespace Sys2Proof.Machine

/-- The row of the TRAP routine that a state of the handler belongs to. -/
def TrapState.routine : TrapState → Instr
  | .gRead => .getc
  | .gDone _ => .getc
  | .oWrite => .out
  | .oFlush => .out
  | .pScan _ => .puts
  | .pFlush => .puts
  | .iPrompt _ => .inChar
  | .iFlush1 => .inChar
  | .iRead => .inChar
  | .iEcho _ => .inChar
  | .iFlush2 _ => .inChar
  | .iDone _ => .inChar
  | .qScan _ => .putsp
  | .qHigh _ _ => .putsp
  | .qFlush => .putsp
  | .hNotice _ => .halt
  | .hFlush => .halt

/-- The handler is idle or in the routine of the row `r`. -/
def State.inRoutine (s : State) (r : Instr) : Prop := ∀ t, s.micro = some t → t.routine = r

theorem State.inRoutine_of_micro {s : State} {t : TrapState} {r : Instr} (h : s.micro = some t)
    (ht : t.routine = r) : s.inRoutine r := fun u hu => by
  rw [h] at hu; rw [← Option.some.inj hu, ht]

theorem State.inRoutine_of_idle {s : State} {r : Instr} (h : s.micro = none) : s.inRoutine r :=
  fun u hu => by rw [h] at hu; cases hu

theorem State.readChar_inRoutine {s : State} {r : Instr} {go : Byte → TrapState}
    (hs : s.inRoutine r) (hgo : ∀ c, (go c).routine = r) : (s.readChar go).inRoutine r := by
  rcases s.readChar_eq go with h | ⟨c, rest, -, h⟩ <;> rw [h]
  · exact hs
  · exact State.inRoutine_of_micro rfl (hgo c)

theorem State.writeText_inRoutine {s : State} {r : Instr} {text : List Byte} {k : Nat}
    {next : Nat → TrapState} {done : TrapState} (hnext : ∀ k, (next k).routine = r)
    (hdone : done.routine = r) : (s.writeText text k next done).inRoutine r := by
  rcases s.writeText_eq text k next done with ⟨-, h⟩ | ⟨b, -, h⟩ <;> rw [h]
  · exact State.inRoutine_of_micro rfl hdone
  · exact State.inRoutine_of_micro rfl (hnext _)

/-- No state of the handler leaves its routine but to idle. -/
theorem microStep_inRoutine {s : State} {t : TrapState} (hm : s.micro = some t) :
    (microStep t s).inRoutine t.routine := by
  cases t with
  | gRead | iRead =>
    exact State.readChar_inRoutine (State.inRoutine_of_micro hm rfl) fun _ => rfl
  | iPrompt k | hNotice k => exact State.writeText_inRoutine (fun _ => rfl) rfl
  | pScan a | qScan a =>
    simp only [microStep]
    split
    · exact State.inRoutine_of_micro rfl rfl
    · exact State.inRoutine_of_micro rfl rfl
  | gDone c | iDone c | oFlush | pFlush | qFlush | hFlush => exact State.inRoutine_of_idle rfl
  | oWrite | iFlush1 | iEcho c | iFlush2 c | qHigh a w => exact State.inRoutine_of_micro rfl rfl

/-- The induction over the run of one routine: what every one of its states keeps, the run keeps. -/
theorem runTrap_induct_routine {P : State → Prop} {r : Instr}
    (hstep : ∀ s t, t.routine = r → P s → P (microStep t s)) (n : Nat) {s : State}
    (hr : s.inRoutine r) (h : P s) : P (runTrap n s) := by
  refine (runTrap_induct (P := fun u => P u ∧ u.inRoutine r) ?_ n s ⟨h, hr⟩).1
  rintro u t hm - ⟨hP, hu⟩
  have ht : t.routine = r := hu t hm
  exact ⟨hstep u t ht hP, ht ▸ microStep_inRoutine hm⟩

/-- A routine that reads no character changes the status, its own state and the console's output. -/
theorem microStep_frame_of_writer {t : TrapState} (h : writesCond t.routine = false) (s : State) :
    microStep t s = { s with status := (microStep t s).status, micro := (microStep t s).micro,
                             log := (microStep t s).log } := by
  cases t with
  | gRead | gDone c | iPrompt k | iFlush1 | iRead | iEcho c | iFlush2 c | iDone c => cases h
  | pScan a | qScan a =>
    simp only [microStep]
    split <;> rfl
  | qHigh a w =>
    simp only [microStep]
    split <;> rfl
  | hNotice k =>
    simp only [microStep]
    rcases s.writeText_eq s.cfg.haltNotice k .hNotice .hFlush with ⟨-, h⟩ | ⟨b, -, h⟩ <;> rw [h]
  | oWrite | oFlush | pFlush | qFlush | hFlush => rfl

/-- No routine but HALT's changes the status. -/
theorem microStep_status_of_routine {t : TrapState} (h : t.routine ≠ .halt) (s : State) :
    (microStep t s).status = s.status := by
  cases t with
  | hNotice k | hFlush => exact absurd rfl h
  | gRead | iRead =>
    simp only [microStep]
    rcases s.readChar_eq _ with h | ⟨c, rest, -, h⟩ <;> rw [h]
  | iPrompt k =>
    simp only [microStep]
    rcases s.writeText_eq _ _ _ _ with ⟨-, h⟩ | ⟨b, -, h⟩ <;> rw [h]
  | pScan a | qScan a | qHigh a w =>
    simp only [microStep]
    split <;> rfl
  | _ => rfl

theorem runTrap_frame_of_writer (n : Nat) {s : State} {r : Instr} (hr : s.inRoutine r)
    (hw : writesCond r = false) :
    runTrap n s = { s with status := (runTrap n s).status, micro := (runTrap n s).micro,
                           log := (runTrap n s).log } := by
  refine runTrap_induct_routine (P := fun u =>
    u = { s with status := u.status, micro := u.micro, log := u.log }) ?_ n hr rfl
  intro u t ht hu
  rw [microStep_frame_of_writer (ht ▸ hw) u]
  generalize microStep t u = v
  rw [hu]

theorem runTrap_status_of_routine (n : Nat) {s : State} {r : Instr} (hr : s.inRoutine r)
    (hh : r ≠ .halt) : (runTrap n s).status = s.status :=
  runTrap_induct_routine (P := fun u => u.status = s.status)
    (fun u _ ht hu => (microStep_status_of_routine (ht ▸ hh) u).trans hu) n hr rfl

/-! ## The routine a TRAP starts -/

theorem State.runRoutine_eq (s : State) (m : TrapState) :
    s.runRoutine m = runTrap (trapFuel s) (s.goto (some m)) := rfl

@[simp] theorem State.runRoutine_cfg (s : State) (m : TrapState) : (s.runRoutine m).cfg = s.cfg :=
  runTrap_cfg _ _

@[simp] theorem State.runRoutine_pc (s : State) (m : TrapState) : (s.runRoutine m).pc = s.pc :=
  runTrap_pc _ _

@[simp] theorem State.runRoutine_diag (s : State) (m : TrapState) :
    (s.runRoutine m).diag = s.diag := runTrap_diag _ _

@[simp] theorem State.runRoutine_memPeek (s : State) (m : TrapState) (a : Word) :
    (s.runRoutine m).memPeek a = s.memPeek a := runTrap_memPeek _ _ a

theorem State.runRoutine_reg_other (s : State) (m : TrapState) {r : Reg} (h : r ≠ .r0) :
    (s.runRoutine m).reg r = s.reg r := runTrap_reg_other _ _ h

theorem State.runRoutine_frame_of_writer (s : State) {m : TrapState}
    (hw : writesCond m.routine = false) :
    s.runRoutine m = { s with status := (s.runRoutine m).status, micro := (s.runRoutine m).micro,
                              log := (s.runRoutine m).log } :=
  runTrap_frame_of_writer _ (State.inRoutine_of_micro (s := s.goto (some m)) rfl rfl) hw

theorem State.runRoutine_status (s : State) {m : TrapState} (h : m.routine ≠ .halt) :
    (s.runRoutine m).status = s.status :=
  runTrap_status_of_routine _ (State.inRoutine_of_micro (s := s.goto (some m)) rfl rfl) h

theorem State.runRoutine_halt (s : State) :
    s.runRoutine (.hNotice 0) = { s with
      log := s.log ++ s.cfg.haltNotice.map .writeChar ++ [.flush]
      micro := none
      status := .halted .haltTrap } :=
  runTrap_halt (s := s.goto (some (.hNotice 0))) rfl
    (by simp only [trapFuel, State.goto_cfg]; omega)

end Sys2Proof.Machine
end

section
/-! PROOF. What an instruction can do, said once: the case of its ending, with what the tables of
the whole-machine rules list for it; what the fetch leaves; and the obligations O49 to O58. -/

namespace Sys2Proof.Machine

/-! ## The row an instruction is executed as -/

/-- The row an instruction is executed as: for the generic TRAP the row of its vector (R91). -/
def executedRow : Instr → Instr
  | .trap v => decodeTrap v
  | i => i

theorem validVector_cases : ∀ v : BitVec 8, validVector v = true →
    v = 0x20#8 ∨ v = 0x21#8 ∨ v = 0x22#8 ∨ v = 0x23#8 ∨ v = 0x24#8 ∨ v = 0x25#8 := by decide

/-- A table that lists for the generic TRAP what it lists for the row of its vector: it lists for an
instruction what it lists for the row it is executed as. -/
theorem table_executedRow {α : Type} {f : Instr → α}
    (hvalid : f .getc = f (.trap 0x20#8) ∧ f .out = f (.trap 0x21#8) ∧ f .puts = f (.trap 0x22#8) ∧
      f .inChar = f (.trap 0x23#8) ∧ f .putsp = f (.trap 0x24#8) ∧ f .halt = f (.trap 0x25#8))
    (hinvalid : ∀ v, validVector v = false → f (.trapInvalid v) = f (.trap v)) (i : Instr) :
    f (executedRow i) = f i := by
  cases i with
  | trap v =>
    show f (decodeTrap v) = f (.trap v)
    cases hv : validVector v with
    | false => rw [decodeTrap_invalid hv, hinvalid v hv]
    | true =>
      obtain ⟨h0, h1, h2, h3, h4, h5⟩ := hvalid
      rcases validVector_cases v hv with rfl | rfl | rfl | rfl | rfl | rfl
      · exact h0
      · exact h1
      · exact h2
      · exact h3
      · exact h4
      · exact h5
  | _ => rfl

theorem writtenRegs_executedRow (cfg : Config) (i : Instr) :
    writtenRegs cfg (executedRow i) = writtenRegs cfg i := by
  refine table_executedRow ⟨rfl, rfl, rfl, rfl, rfl, rfl⟩ (fun v hv => ?_) i
  simp [writtenRegs, hv]

theorem writesPC_executedRow (i : Instr) : writesPC (executedRow i) = writesPC i :=
  table_executedRow ⟨rfl, rfl, rfl, rfl, rfl, rfl⟩ (fun _ _ => rfl) i

theorem writesCond_executedRow (i : Instr) : writesCond (executedRow i) = writesCond i := by
  refine table_executedRow ⟨rfl, rfl, rfl, rfl, rfl, rfl⟩ (fun v hv => ?_) i
  revert v; decide

theorem haltOf_executedRow (i : Instr) : haltOf (executedRow i) = haltOf i := by
  refine table_executedRow ⟨rfl, rfl, rfl, rfl, rfl, rfl⟩ (fun v hv => ?_) i
  revert v; decide

theorem readAddresses_executedRow (s : State) (i : Instr) :
    readAddresses s (executedRow i) = readAddresses s i :=
  table_executedRow ⟨rfl, rfl, rfl, rfl, rfl, rfl⟩ (fun _ _ => rfl) i

theorem storeAddress_executedRow (s : State) (i : Instr) :
    storeAddress s (executedRow i) = storeAddress s i :=
  table_executedRow ⟨rfl, rfl, rfl, rfl, rfl, rfl⟩ (fun _ _ => rfl) i

/-! ## The cases of an instruction -/

/-- The state after the MemReads of a list of addresses, in order. -/
def State.afterReads (s : State) (l : List Word) : State := l.foldl State.afterRead s

/-- The endings of an instruction that answers a next state, each with the entries of the tables
that an instruction with this ending has. -/
inductive ExecCase (s : State) (i : Instr) : State → Prop where
  /-- The operate instructions, the loads and LEA. -/
  | dest (dr : Reg) (v : Word) (hregs : writtenRegs s.cfg i = [dr]) (hcond : writesCond i = true)
    (hhalt : haltOf i = none) :
    ExecCase s i ((s.afterReads (readAddresses s i)).writeDest dr v)
  /-- The stores. -/
  | store (a v : Word) (haddr : storeAddress s i = some a) (hhalt : haltOf i = none) :
    ExecCase s i ((s.afterReads (readAddresses s i)).memWrite a v)
  /-- BR, JMP and RET; a BR that is not taken leaves PC as it is. -/
  | jump (v : Word) (hpc : writesPC i = true) (hhalt : haltOf i = none) : ExecCase s i (s.setPC v)
  /-- JSR and JSRR. -/
  | link (v : Word) (hregs : writtenRegs s.cfg i = [.r7]) (hpc : writesPC i = true)
    (hhalt : haltOf i = none) : ExecCase s i ((s.setReg .r7 s.pc).setPC v)
  /-- TRAP with a valid vector. -/
  | routine (m : TrapState) (hm : m.routine = i) (hhalt : i = .halt → m = .hNotice 0) :
    ExecCase s i (s.trapLink.runRoutine m)
  /-- RTI, RES and TRAP with an invalid vector. -/
  | halt (r : HaltReason) (hhalt : haltOf i = some r) : ExecCase s i (s.raiseHalt r)

theorem executedRow_of_ne_trap {i : Instr} (h : ∀ v, i ≠ .trap v) : executedRow i = i := by
  cases i with
  | trap v => exact absurd rfl (h v)
  | _ => rfl

/-- The inversion of an instruction: whatever it answers is one of the cases. -/
theorem exec_case {i : Instr} {s t : State} (h : exec i s = .next t) :
    ExecCase s (executedRow i) t := by
  refine exec_rows (P := fun i t => ExecCase s (executedRow i) t) (fun i hi t h => ?row)
    (fun v t ht => ?trap) i t h
  case trap => rwa [executedRow_of_ne_trap (decodeTrap_ne_trap v)] at ht
  case row =>
    rw [executedRow_of_ne_trap hi]
    cases i with
    | trap v => exact absurd rfl (hi v)
    | addReg | addImm | andReg | andImm | not | ld | ldi | ldr | lea =>
      cases h; exact .dest _ _ rfl rfl rfl
    | st | sti | str => cases h; exact .store _ _ rfl rfl
    | br n z p off9 =>
      cases h
      split
      · exact .jump _ rfl rfl
      · exact .jump s.pc rfl rfl
    | jmp | ret => cases h; exact .jump _ rfl rfl
    | jsr | jsrr => cases h; exact .link _ rfl rfl rfl
    | getc | out | puts | inChar | putsp =>
      cases h; exact .routine _ rfl fun hi => by cases hi
    | halt => cases h; exact .routine _ rfl fun _ => rfl
    | trapInvalid | rti | res => cases h; exact .halt _ rfl

/-- No instruction faults or is refused (R106). -/
theorem exec_isNext (i : Instr) (s : State) : ∃ t, exec i s = .next t := by
  cases i with
  | trap v =>
    show ∃ t, execTrap v s = .next t
    unfold execTrap
    split <;> exact ⟨_, rfl⟩
  | _ => exact ⟨_, rfl⟩

/-! ## What the reads of an instruction leave -/

/-- What one MemRead leaves, the MemReads of an instruction leave. -/
theorem State.afterReads_keep {α : Type} {f : State → α} (hf : ∀ s a, f (State.afterRead s a) = f s)
    (s : State) (l : List Word) : f (s.afterReads l) = f s := by
  induction l generalizing s with
  | nil => rfl
  | cons a l ih => exact (ih (s.afterRead a)).trans (hf s a)

@[simp] theorem State.afterReads_reg (s : State) (l : List Word) (r : Reg) :
    (s.afterReads l).reg r = s.reg r :=
  State.afterReads_keep (f := fun u => u.reg r) (fun s a => s.afterRead_reg a r) s l

@[simp] theorem State.afterReads_pc (s : State) (l : List Word) : (s.afterReads l).pc = s.pc :=
  State.afterReads_keep (f := State.pc) State.afterRead_pc s l

@[simp] theorem State.afterReads_cond (s : State) (l : List Word) :
    (s.afterReads l).cond = s.cond :=
  State.afterReads_keep (f := State.cond) State.afterRead_cond s l

@[simp] theorem State.afterReads_status (s : State) (l : List Word) :
    (s.afterReads l).status = s.status :=
  State.afterReads_keep (f := State.status) State.afterRead_status s l

@[simp] theorem State.afterReads_diag (s : State) (l : List Word) :
    (s.afterReads l).diag = s.diag :=
  State.afterReads_keep (f := State.diag) State.afterRead_diag s l

/-- The reads of an instruction change KBSR and KBDR at most, and these only by a poll. -/
theorem State.memPeek_afterReads {s : State} {a : Word} {l : List Word}
    (h : s.cfg.kbsrAddr ∉ l ∨ (a ≠ s.cfg.kbsrAddr ∧ a ≠ s.cfg.kbdrAddr)) :
    (s.afterReads l).memPeek a = s.memPeek a := by
  induction l generalizing s with
  | nil => rfl
  | cons b l ih =>
    have hread : (s.afterRead b).memPeek a = s.memPeek a := by
      by_cases hb : b = s.cfg.kbsrAddr
      · subst hb
        obtain ⟨ha, hd⟩ := h.resolve_left (fun hnot => hnot (List.mem_cons_self ..))
        rw [State.afterRead_kbsr, s.memPeek_poll_other ha hd]
      · rw [State.afterRead_plain hb]
    refine Eq.trans (ih (s := s.afterRead b) ?_) hread
    rw [State.afterRead_cfg]
    exact h.imp_left fun hnot hmem => hnot (List.mem_cons_of_mem _ hmem)

/-! ## What an instruction keeps, by its case -/

@[simp] theorem State.writeDest_pc (s : State) (dr : Reg) (v : Word) :
    (s.writeDest dr v).pc = s.pc := rfl

@[simp] theorem State.writeDest_status (s : State) (dr : Reg) (v : Word) :
    (s.writeDest dr v).status = s.status := rfl

@[simp] theorem State.writeDest_diag (s : State) (dr : Reg) (v : Word) :
    (s.writeDest dr v).diag = s.diag := rfl

@[simp] theorem State.writeDest_memPeek (s : State) (dr : Reg) (v a : Word) :
    (s.writeDest dr v).memPeek a = s.memPeek a := rfl

/-- The registers of a routine: R7 by the link, R0 by the two routines that read a character. -/
theorem State.reg_routine {s : State} {m : TrapState} {r : Reg}
    (hlink : s.cfg.trapLinksR7 = true → r ≠ .r7) (hread : writesCond m.routine = true → r ≠ .r0) :
    (s.trapLink.runRoutine m).reg r = s.reg r := by
  have hrun : (s.trapLink.runRoutine m).reg r = s.trapLink.reg r := by
    cases hw : writesCond m.routine with
    | true => exact State.runRoutine_reg_other _ _ (hread hw)
    | false => rw [State.runRoutine_frame_of_writer _ hw]; rfl
  rw [hrun]
  cases hc : s.cfg.trapLinksR7 with
  | true => exact s.trapLink_reg_other (hlink hc)
  | false => rw [s.trapLink_of_unlinked hc]

/-- A routine writes R7 exactly when it links, and R0 where it reads a character. -/
theorem mem_writtenRegs_routine {cfg : Config} {m : TrapState} :
    (cfg.trapLinksR7 = true → .r7 ∈ writtenRegs cfg m.routine) ∧
    (writesCond m.routine = true → .r0 ∈ writtenRegs cfg m.routine) := by
  cases m <;> simp +contextual [TrapState.routine, writtenRegs, writesCond]

theorem exec_reg {i : Instr} {s t : State} {r : Reg} (h : exec i s = .next t)
    (hr : r ∉ writtenRegs s.cfg i) : t.reg r = s.reg r := by
  rw [← writtenRegs_executedRow] at hr
  have hcase := exec_case h
  generalize executedRow i = j at hcase hr
  cases hcase with
  | dest dr v hregs =>
    rw [hregs, List.mem_singleton] at hr
    rw [State.writeDest_reg_other _ _ hr, State.afterReads_reg]
  | store a v => exact State.afterReads_reg _ _ r
  | jump v => rfl
  | link v hregs =>
    rw [hregs, List.mem_singleton] at hr
    exact s.reg_setReg_other _ hr
  | routine m hm =>
    subst hm
    refine State.reg_routine (fun hlink => ?_) (fun hread => ?_)
    · rintro rfl
      exact hr (mem_writtenRegs_routine.1 hlink)
    · rintro rfl
      exact hr (mem_writtenRegs_routine.2 hread)
  | halt => rfl

theorem exec_pc {i : Instr} {s t : State} (h : exec i s = .next t) (hi : writesPC i = false) :
    t.pc = s.pc := by
  rw [← writesPC_executedRow] at hi
  have hcase := exec_case h
  generalize executedRow i = j at hcase hi
  cases hcase with
  | dest | store => exact s.afterReads_pc _
  | jump v hpc => rw [hi] at hpc; cases hpc
  | link v hregs hpc => rw [hi] at hpc; cases hpc
  | routine m => exact State.runRoutine_pc _ _
  | halt => rfl

theorem exec_cond {i : Instr} {s t : State} (h : exec i s = .next t) (hi : writesCond i = false) :
    t.cond = s.cond := by
  rw [← writesCond_executedRow] at hi
  have hcase := exec_case h
  generalize executedRow i = j at hcase hi
  cases hcase with
  | dest dr v hregs hcond => rw [hi] at hcond; cases hcond
  | store => exact s.afterReads_cond _
  | jump | link | halt => rfl
  | routine m hm => subst hm; rw [State.runRoutine_frame_of_writer _ hi]; rfl

theorem exec_memPeek {i : Instr} {s t : State} {a : Word} (h : exec i s = .next t)
    (hstore : storeAddress s i ≠ some a)
    (hread : s.cfg.kbsrAddr ∉ readAddresses s i ∨ (a ≠ s.cfg.kbsrAddr ∧ a ≠ s.cfg.kbdrAddr)) :
    t.memPeek a = s.memPeek a := by
  rw [← storeAddress_executedRow] at hstore
  rw [← readAddresses_executedRow] at hread
  have hcase := exec_case h
  generalize executedRow i = j at hcase hstore hread
  cases hcase with
  | dest => exact State.memPeek_afterReads hread
  | store b v haddr =>
    have hne : a ≠ b := by rintro rfl; exact hstore haddr
    rw [State.memPeek_memWrite_other _ _ hne, State.memPeek_afterReads hread]
  | jump | link | halt => rfl
  | routine m => exact State.runRoutine_memPeek _ _ a

theorem HaltReason.diagnose_eq (r : HaltReason) (d : List HaltReason) :
    r.diagnose d = if r = .haltTrap then d else d ++ [r] := by
  cases r <;> rfl

theorem haltOf_routine {m : TrapState} (h : m.routine ≠ .halt) : haltOf m.routine = none := by
  cases m with
  | hNotice | hFlush => exact absurd rfl h
  | _ => rfl

/-- An instruction that is not listed as halting keeps the status and the diagnostic channel; one
that is ends in its reason, with the reason on the channel if it is an error. -/
theorem exec_halt_cases {i : Instr} {s t : State} (h : exec i s = .next t) :
    (haltOf i = none ∧ t.status = s.status ∧ t.diag = s.diag) ∨
    ∃ r, haltOf i = some r ∧ t.status = .halted r ∧
      t.diag = if r = .haltTrap then s.diag else s.diag ++ [r] := by
  rw [← haltOf_executedRow]
  have hcase := exec_case h
  generalize executedRow i = j at hcase
  cases hcase with
  | dest dr v _ _ hhalt | store a v _ hhalt =>
    exact .inl ⟨hhalt, s.afterReads_status _, s.afterReads_diag _⟩
  | jump v _ hhalt | link v _ _ hhalt => exact .inl ⟨hhalt, rfl, rfl⟩
  | routine m hm hhalt =>
    subst hm
    by_cases hm : m.routine = .halt
    · rw [hm, hhalt hm, State.runRoutine_halt]
      exact .inr ⟨.haltTrap, rfl, rfl, rfl⟩
    · exact .inl ⟨haltOf_routine hm, State.runRoutine_status _ hm, State.runRoutine_diag _ _⟩
  | halt r hhalt => exact .inr ⟨r, hhalt, rfl, r.diagnose_eq s.diag⟩

/-- The halts of well-formed instructions: a TRAP of the invalid row has an invalid vector. -/
theorem haltOf_wellFormed {i : Instr} {r : HaltReason} (hwf : i.wellFormed = true)
    (h : haltOf i = some r) : r = .haltTrap ∨ r = .decodeError 0x8#4 ∨ r = .decodeError 0xD#4 ∨
      ∃ v : BitVec 8, (v.toNat < 0x20 ∨ 0x25 < v.toNat) ∧ r = .badTrapVector v := by
  cases i with
  | halt => exact .inl (Option.some.inj h).symm
  | rti => exact .inr (.inl (Option.some.inj h).symm)
  | res => exact .inr (.inr (.inl (Option.some.inj h).symm))
  | trapInvalid v =>
    have hv : validVector v = false := by simpa [Instr.wellFormed] using hwf
    exact .inr (.inr (.inr ⟨v, (validVector_eq_false_iff v).mp hv, (Option.some.inj h).symm⟩))
  | trap => cases hwf
  | _ => cases h

/-! ## The fetch -/

@[simp] theorem State.fetched_cfg (s : State) : s.fetched.cfg = s.cfg := by simp [State.fetched_eq]

@[simp] theorem State.fetched_ir (s : State) : s.fetched.ir = s.memRead s.pc := by
  simp [State.fetched_eq]

@[simp] theorem State.fetched_pc (s : State) : s.fetched.pc = s.pc + 1#16 := by
  simp [State.fetched_eq]

@[simp] theorem State.fetched_status (s : State) : s.fetched.status = s.status := by
  simp [State.fetched_eq]

@[simp] theorem State.fetched_micro (s : State) : s.fetched.micro = s.micro := by
  simp [State.fetched_eq]

@[simp] theorem State.fetched_mem (s : State) : s.fetched.mem = (s.afterRead s.pc).mem := by
  rw [State.fetched_eq]

@[simp] theorem State.fetched_log (s : State) : s.fetched.log = (s.afterRead s.pc).log := by
  rw [State.fetched_eq]

theorem State.afterRead_log (s : State) (a : Word) : s.log <+: (s.afterRead a).log := by
  unfold State.afterRead
  split
  · exact s.poll_log
  · exact List.prefix_rfl

/-! ## The rest of a routine, and the invariant -/

theorem State.resumeTrap_eq (s : State) : s.resumeTrap = runTrap (trapFuel s) s := rfl

/-- A run of the handler for the whole fuel of a step, entered while the machine runs, keeps the
invariant: it comes to rest, and it ends the run only by going idle. -/
theorem runTrap_inv {s : State} (hmem : Memory.wf s.mem = true) (hrun : s.status = .running) :
    (runTrap (trapFuel s) s).Inv := by
  refine ⟨by rw [runTrap_mem]; exact hmem, runTrap_atRest s, fun hended => ?_⟩
  rcases runTrap_status (trapFuel s) s (fun hn => absurd hrun hn) with hst | ⟨-, hidle⟩
  · exact absurd (hst.trans hrun) hended
  · exact hidle

/-- An instruction executed with the handler idle keeps the invariant: it runs a routine for its
whole fuel, or leaves the handler idle. -/
theorem exec_inv {i : Instr} {s t : State} (h : exec i s = .next t) (hmem : Memory.wf s.mem = true)
    (hrun : s.status = .running) (hidle : s.micro = none) : t.Inv := by
  have hwf : Memory.wf t.mem = true := exec_mem_wf i s t h hmem
  rcases exec_routine_or_not i s t h with ⟨m, rfl⟩ | ⟨hmicro, -⟩
  · exact runTrap_inv (s := s.trapLink.goto (some m)) hmem hrun
  · have hmicro : t.micro = none := hmicro.trans hidle
    exact ⟨hwf, .inl hmicro, fun _ => hmicro⟩

theorem step_inv {s t : State} (hinv : s.Inv) (h : step s = .next t) : t.Inv := by
  obtain ⟨hmem, -, -⟩ := hinv
  obtain ⟨hrun, ⟨-, rfl⟩ | ⟨hidle, i, -, hexec⟩⟩ := step_cases h
  · exact runTrap_inv hmem hrun
  · refine exec_inv hexec ?_ (s.fetched_status.trans hrun) (s.fetched_micro.trans hidle)
    rw [State.fetched_mem]
    exact State.afterRead_wf _ hmem

theorem State.inv_of_idle {s : State} (hmem : Memory.wf s.mem = true) (hidle : s.micro = none) :
    s.Inv := ⟨hmem, .inl hidle, fun _ => hidle⟩

theorem boot_inv {cfg : Config} {stream : Option (List Byte)} {s : State}
    (h : boot cfg stream = .ok s) : s.Inv := by
  obtain ⟨_, origin, words, -, -, hfit, rfl⟩ := loadImage_eq_ok_iff.mp h
  exact State.inv_of_idle (writeWords_wf (m := []) words rfl hfit) rfl

/-! ## The obligations -/

/-- Settles O56: the routine of a TRAP comes to rest within the fuel of its step, and no other
instruction touches the handler. -/
theorem stepKeepsTheInvariant : Obligations.StepKeepsTheInvariant := by
  unfold Obligations.StepKeepsTheInvariant
  exact fun s t hinv h => step_inv hinv h

/-- Settles O55: the constructed memory is empty, a load writes it word by word, and the handler is
idle in both. -/
theorem invariantHoldsAtStart : Obligations.InvariantHoldsAtStart := by
  unfold Obligations.InvariantHoldsAtStart
  exact ⟨State.inv_of_idle rfl rfl, fun cfg => State.inv_of_idle rfl rfl,
    fun cfg stream s h => boot_inv h⟩

/-- Settles O49, case by case of the instruction's ending. -/
theorem onlyListedRegistersAreWritten : Obligations.OnlyListedRegistersAreWritten := by
  unfold Obligations.OnlyListedRegistersAreWritten
  exact fun i s t r h hr => exec_reg h hr

/-- Settles O50, case by case of the instruction's ending. -/
theorem onlyControlTransfersWritePc : Obligations.OnlyControlTransfersWritePc := by
  unfold Obligations.OnlyControlTransfersWritePc
  exact fun i s t h hi => exec_pc h hi

/-- Settles O51, case by case of the instruction's ending. -/
theorem onlyListedInstructionsWriteCond : Obligations.OnlyListedInstructionsWriteCond := by
  unfold Obligations.OnlyListedInstructionsWriteCond
  exact fun i s t h hi => exec_cond h hi

/-- Settles O52: the reads change KBSR and KBDR at most, the store its own address. -/
theorem memoryChangesOnlyByStoresAndPolls : Obligations.MemoryChangesOnlyByStoresAndPolls := by
  unfold Obligations.MemoryChangesOnlyByStoresAndPolls
  exact fun i s t a h hstore hread => exec_memPeek h hstore hread

/-- Settles O53, case by case of the instruction's ending. -/
theorem onlyListedInstructionsHalt : Obligations.OnlyListedInstructionsHalt := by
  unfold Obligations.OnlyListedInstructionsHalt
  intro i s t h
  rcases exec_halt_cases h with ⟨hnone, hstatus, hdiag⟩ | ⟨r, hsome, hstatus, hdiag⟩
  · rw [hnone]; exact ⟨hstatus, hdiag⟩
  · rw [hsome]; exact ⟨hstatus, hdiag⟩

/-- Settles O54: a resumed routine can end in HALT's reason only, and a decoded instruction is
well-formed, so its halt is one of the listed ones. -/
theorem haltReasonsThatCanBeReached : Obligations.HaltReasonsThatCanBeReached := by
  unfold Obligations.HaltReasonsThatCanBeReached
  intro s t h
  obtain ⟨hrun, ⟨-, rfl⟩ | ⟨-, i, rfl, hexec⟩⟩ := step_cases h
  · rcases runTrap_status (trapFuel s) s (fun hn => absurd hrun hn) with hst | ⟨hst, -⟩
    · exact .inl (hst.trans hrun)
    · exact .inr (.inl hst)
  · rcases exec_halt_cases hexec with ⟨-, hstatus, -⟩ | ⟨r, hhalt, hstatus, -⟩
    · exact .inl (hstatus.trans (s.fetched_status.trans hrun))
    · refine .inr ?_
      rw [hstatus]
      rcases haltOf_wellFormed (decode_wellFormed _) hhalt with rfl | rfl | rfl | ⟨v, hv, rfl⟩
      · exact .inl rfl
      · exact .inr (.inl rfl)
      · exact .inr (.inr (.inl rfl))
      · exact .inr (.inr (.inr ⟨v, hv, rfl⟩))

/-- Settles O57: no operation that an instruction is made of writes the parameters. -/
theorem noStepChangesTheParameters : Obligations.NoStepChangesTheParameters := by
  unfold Obligations.NoStepChangesTheParameters
  intro s t h
  obtain ⟨-, ⟨-, rfl⟩ | ⟨-, i, -, hexec⟩⟩ := step_cases h
  · exact runTrap_cfg _ s
  · exact exec_induct (P := fun u => u.cfg = s.cfg) (fun _ _ _ h => h) (fun _ _ h => h)
      (fun _ _ h => h) (fun _ _ _ h => h) (fun u h => u.poll_cfg.trans h) (fun _ _ h => h)
      (fun _ _ h => h) (fun n u h => (runTrap_cfg n u).trans h) i _ t hexec s.fetched_cfg

/-- Settles O58: every operation that an instruction is made of appends to the log or leaves it. -/
theorem consoleOperationsAreNeverTakenBack : Obligations.ConsoleOperationsAreNeverTakenBack := by
  unfold Obligations.ConsoleOperationsAreNeverTakenBack
  intro s t h
  obtain ⟨-, ⟨-, rfl⟩ | ⟨-, i, -, hexec⟩⟩ := step_cases h
  · exact runTrap_log _ s
  · exact exec_induct (P := fun u => s.log <+: u.log) (fun _ _ _ h => h) (fun _ _ h => h)
      (fun _ _ h => h) (fun _ _ _ h => h) (fun u h => h.trans u.poll_log) (fun _ _ h => h)
      (fun _ _ h => h) (fun n u h => h.trans (runTrap_log n u)) i _ t hexec
      (s.fetched_log ▸ s.afterRead_log s.pc)

end Sys2Proof.Machine
end

section
/-! PROOF. One step (30_encoding.md R62, R64, R66, R68): what it answers in each case, that it does
not read the old instruction register or the trace, and the obligations O44 to O48, O59 and O60. -/

namespace Sys2Proof.Machine

/-! ## The cases of a step -/

theorem step_of_halted {s : State} {r : HaltReason} (h : s.status = .halted r) :
    step s = .fault (.halted r) := by
  simp only [step, h]

theorem step_of_busy {s : State} {m : TrapState} (hrun : s.status = .running)
    (hm : s.micro = some m) : step s = .next s.resumeTrap := by
  simp only [step, hrun, hm]

/-- The strict switch lets the fetched word through. -/
theorem step_of_idle {s : State} (hrun : s.status = .running) (hidle : s.micro = none)
    (hstd : s.cfg.strictReservedBits = true → standardBits (s.memRead s.pc) = true) :
    step s = exec (decode (s.memRead s.pc)) s.fetched := by
  have hpass : ¬ (s.cfg.strictReservedBits && !standardBits (s.memRead s.pc)) = true := by
    simpa using hstd
  simp only [step, hrun, hidle, State.fetched_ir, decodeUnder, if_neg hpass]

theorem step_of_nonStandard {s : State} (hrun : s.status = .running) (hidle : s.micro = none)
    (hstrict : s.cfg.strictReservedBits = true) (hstd : standardBits (s.memRead s.pc) = false) :
    step s = .refused (.reservedBits (s.memRead s.pc)) := by
  simp only [step, hrun, hidle, State.fetched_ir, decodeUnder, hstrict, hstd, Bool.not_false,
    Bool.and_true, if_true]

theorem step_refused_iff {s : State} (hrun : s.status = .running) (hidle : s.micro = none) :
    step s = .refused (.reservedBits (s.memRead s.pc)) ↔
      s.cfg.strictReservedBits = true ∧ standardBits (s.memRead s.pc) = false := by
  constructor
  · intro h
    by_contra hpass
    have hstd : s.cfg.strictReservedBits = true → standardBits (s.memRead s.pc) = true := by
      simpa using hpass
    obtain ⟨t, ht⟩ := exec_isNext (decode (s.memRead s.pc)) s.fetched
    rw [step_of_idle hrun hidle hstd, ht] at h
    cases h
  · exact fun ⟨hstrict, hstd⟩ => step_of_nonStandard hrun hidle hstrict hstd

theorem step_of_blocked {s : State} (h : s.blocked) : step s = .next s := by
  obtain ⟨hrun, hmicro, hkey⟩ := h
  rcases hmicro with hm | hm <;>
    rw [step_of_busy hrun hm, State.resumeTrap_eq, runTrap_held hm (by simp [holds, hkey])]

/-! ## The word placed for the next fetch (log 13) -/

theorem or_bit15_of_set {w : Word} (h : w.getLsbD 15 = true) : w ||| 0x8000#16 = w := by
  apply BitVec.eq_of_getLsbD_eq
  intro i hi
  interval_cases i <;> simp_all

theorem and_bit15_of_clear {w : Word} (h : w.getLsbD 15 = false) : w &&& 0x7FFF#16 = w := by
  apply BitVec.eq_of_getLsbD_eq
  intro i hi
  interval_cases i <;> simp_all

/-- The fetch reads the word that was placed: as it stands, or, from KBSR, with the bit 15 that the
poll gives it, which is the word's own. -/
theorem State.memRead_placeWord (s : State) (w : Word) (hdev : s.cfg.kbdrAddr ≠ s.cfg.kbsrAddr) :
    (s.placeWord w).memRead s.pc = w := by
  have hcfg : (s.placeWord w).cfg = s.cfg := rfl
  have hpeek : (s.placeWord w).memPeek s.pc = w := s.memPeek_memWrite_self s.pc w
  by_cases hpc : s.pc = s.cfg.kbsrAddr
  · rw [hpc, ← hcfg] at hpeek ⊢
    rw [← hcfg] at hdev
    rw [State.memRead, State.afterRead_kbsr]
    cases hbit : w.getLsbD 15 with
    | true =>
      have hinput : (s.placeWord w).input = .key 0#8 :: s.input := by
        simp only [State.placeWord, hpc, hbit, if_true]
      rw [State.memPeek_poll_kbsr_of_key hdev hinput, hpeek, or_bit15_of_set hbit]
    | false =>
      have hinput : (s.placeWord w).input = .quiet :: s.input := by
        simp only [State.placeWord, hpc, hbit, if_true, Bool.false_eq_true, if_false]
      rw [State.memPeek_poll_kbsr_of_noKey (.inr ⟨_, hinput⟩), hpeek, and_bit15_of_clear hbit]
  · rw [State.memRead_plain (s := s.placeWord w) hpc, hpeek]

/-! ## The old instruction register -/

theorem State.fetched_of_ir (s : State) (w : Word) :
    State.fetched { s with ir := w } = s.fetched := by
  have hpoll : State.poll { s with ir := w } = { s.poll with ir := w } := by
    simp only [State.poll]
    split <;> rfl
  have hread : State.afterRead { s with ir := w } s.pc = { s.afterRead s.pc with ir := w } := by
    simp only [State.afterRead, hpoll]
    split <;> rfl
  have hword : State.memRead { s with ir := w } s.pc = s.memRead s.pc := by
    rw [State.memRead, hread]; rfl
  rw [State.fetched_eq, State.fetched_eq, hword, hread]

/-- A step from the idle handler is a function of the state after the fetch. -/
theorem step_congr_of_fetched {s u : State} (hrun : s.status = .running) (hidle : s.micro = none)
    (hrun' : u.status = .running) (hidle' : u.micro = none) (h : u.fetched = s.fetched) :
    step u = step s := by
  have hcfg : u.cfg = s.cfg := by rw [← u.fetched_cfg, h, s.fetched_cfg]
  simp only [step, hrun, hidle, hrun', hidle', hcfg, h]

/-! ## The trace -/

theorem State.poll_untraced (s : State) : s.untraced.poll = s.poll.untraced := by
  simp only [State.poll, State.untraced]
  split <;> rfl

theorem State.afterRead_untraced (s : State) (a : Word) :
    s.untraced.afterRead a = (s.afterRead a).untraced := by
  by_cases h : a = s.cfg.kbsrAddr
  · subst h
    rw [State.afterRead_kbsr s, ← State.poll_untraced]
    exact State.afterRead_kbsr s.untraced
  · rw [State.afterRead_plain h]
    exact State.afterRead_plain (s := s.untraced) h

theorem State.memRead_untraced (s : State) (a : Word) : s.untraced.memRead a = s.memRead a := by
  rw [State.memRead, State.afterRead_untraced]; rfl

theorem State.readChar_untraced (s : State) (go : Byte → TrapState) :
    s.untraced.readChar go = (s.readChar go).untraced := by
  cases h : nextKey s.input with
  | none =>
    have hu : nextKey s.untraced.input = none := h
    simp only [State.readChar, h, hu]
  | some p =>
    rw [State.readChar_some h, State.readChar_some (s := s.untraced) h]
    rfl

theorem State.writeText_untraced (s : State) (text : List Byte) (k : Nat) (next : Nat → TrapState)
    (done : TrapState) :
    s.untraced.writeText text k next done = (s.writeText text k next done).untraced := by
  unfold State.writeText
  split <;> rfl

theorem microStep_untraced (t : TrapState) (s : State) :
    microStep t s.untraced = (microStep t s).untraced := by
  cases t with
  | gRead | iRead => exact s.readChar_untraced _
  | iPrompt k | hNotice k => exact s.writeText_untraced _ _ _ _
  | pScan a | qScan a =>
    simp only [microStep, apply_ite State.untraced]
    rfl
  | qHigh a w =>
    by_cases h : highByte w = 0#8
    · simp only [microStep, if_pos h]; rfl
    · simp only [microStep, if_neg h]; rfl
  | _ => rfl

theorem runTrap_untraced (n : Nat) (s : State) : runTrap n s.untraced = (runTrap n s).untraced := by
  induction n generalizing s with
  | zero => rfl
  | succ n ih =>
    cases hm : s.micro with
    | none => rw [runTrap_idle hm, runTrap_idle (s := s.untraced) hm]
    | some t =>
      cases hh : holds t s.input with
      | true => rw [runTrap_held hm hh, runTrap_held (s := s.untraced) hm hh]
      | false =>
        rw [runTrap_step hm hh, runTrap_step (s := s.untraced) hm hh, microStep_untraced, ih]

theorem State.load_untraced (s : State) (dr : Reg) (ea : Word) :
    s.untraced.load dr ea = (s.load dr ea).untraced := by
  rw [State.load, State.afterRead_untraced, State.memRead_untraced]
  rfl

theorem State.runRoutine_untraced (s : State) (m : TrapState) :
    s.untraced.runRoutine m = (s.runRoutine m).untraced := runTrap_untraced _ (s.goto (some m))

theorem exec_row_untraced {i : Instr} (hi : ∀ v, i ≠ .trap v) (s : State) :
    exec i s.untraced = untracedOutcome (exec i s) := by
  cases i with
  | trap v => exact absurd rfl (hi v)
  | br n z p off9 =>
    by_cases h : branchTaken n z p s.cond = true
    · rw [exec_br_taken off9 h, exec_br_taken (s := s.untraced) off9 h]; rfl
    · rw [exec_br_not_taken off9 h, exec_br_not_taken (s := s.untraced) off9 h]; rfl
  | ld dr off9 => exact congrArg Host.Outcome.next (s.load_untraced dr _)
  | ldr dr base off6 => exact congrArg Host.Outcome.next (s.load_untraced dr _)
  | ldi dr off9 =>
    rw [exec_ldi, exec_ldi, State.afterRead_untraced, State.memRead_untraced, State.load_untraced]
    rfl
  | sti sr off9 =>
    rw [exec_sti, exec_sti, State.afterRead_untraced, State.memRead_untraced]
    rfl
  | getc | out | puts | inChar | putsp | halt =>
    exact congrArg Host.Outcome.next (s.trapLink.runRoutine_untraced _)
  | _ => rfl

/-- Every instruction commutes with taking the trace out: no operation reads it or its switch. -/
theorem exec_untraced (i : Instr) (s : State) : exec i s.untraced = untracedOutcome (exec i s) := by
  cases i with
  | trap v =>
    rw [execTrap_eq, execTrap_eq]
    exact exec_row_untraced (decodeTrap_ne_trap v) s
  | _ => exact exec_row_untraced (fun v hv => by cases hv) s

theorem State.fetched_untraced (s : State) : s.untraced.fetched = s.fetched.untraced := by
  rw [State.fetched_eq, State.fetched_eq]
  have hread : s.untraced.afterRead s.untraced.pc = (s.afterRead s.pc).untraced :=
    s.afterRead_untraced s.pc
  have hword : s.untraced.memRead s.untraced.pc = s.memRead s.pc := s.memRead_untraced s.pc
  rw [hread, hword]
  rfl

theorem step_untraced (s : State) : step s.untraced = untracedOutcome (step s) := by
  cases hst : s.status with
  | halted r => rw [step_of_halted hst, step_of_halted (s := s.untraced) hst]; rfl
  | running =>
    cases hm : s.micro with
    | some m =>
      rw [step_of_busy hst hm, step_of_busy (s := s.untraced) hst hm]
      exact congrArg Host.Outcome.next (runTrap_untraced _ s)
    | none =>
      have hword : s.untraced.memRead s.untraced.pc = s.memRead s.pc := s.memRead_untraced s.pc
      by_cases hstd : s.cfg.strictReservedBits = true → standardBits (s.memRead s.pc) = true
      · have hstd' : s.untraced.cfg.strictReservedBits = true →
            standardBits (s.untraced.memRead s.untraced.pc) = true := by rw [hword]; exact hstd
        rw [step_of_idle hst hm hstd, step_of_idle (s := s.untraced) hst hm hstd', hword,
          State.fetched_untraced, exec_untraced]
      · obtain ⟨hstrict, hbits⟩ : s.cfg.strictReservedBits = true ∧
            standardBits (s.memRead s.pc) = false := by simpa using hstd
        rw [step_of_nonStandard hst hm hstrict hbits,
          step_of_nonStandard (s := s.untraced) hst hm hstrict (by rw [hword]; exact hbits), hword]
        rfl

theorem untracedOutcome_idem (o : Host.Outcome State Fault Refusal) :
    untracedOutcome (untracedOutcome o) = untracedOutcome o := by
  cases o <;> rfl

/-! ## The obligations -/

/-- Settles O44: `step_of_idle`, with the traced opcode that of the decoded instruction. -/
theorem stepRunsTheDecodedInstruction : Obligations.StepRunsTheDecodedInstruction := by
  unfold Obligations.StepRunsTheDecodedInstruction
  rintro s w i hrun hidle rfl rfl hstd
  rw [step_of_idle hrun hidle hstd, State.fetched_eq, opcode_decode]

/-- Settles O45: the switch refuses what `standardBits` refuses, which is R57's table; the words of
the encoder are standard. -/
theorem strictSwitchRefusesNonStandardBits : Obligations.StrictSwitchRefusesNonStandardBits := by
  unfold Obligations.StrictSwitchRefusesNonStandardBits
  intro nonStandard
  refine ⟨fun s hrun hidle => ?_, fun i => ?_⟩
  · have htable : standardBits (s.memRead s.pc) = false ↔ nonStandard (s.memRead s.pc) := by
      rw [← Bool.not_eq_true, standardBits_eq_true_iff_not_nonStandard, not_not]; rfl
    rw [step_refused_iff hrun hidle, htable]
  · exact (standardBits_eq_true_iff_not_nonStandard _).mp (standardBits_encode i)

/-- Settles O46, by the cases of a step. -/
theorem stepIsEnabledExactlyWhileRunning : Obligations.StepIsEnabledExactlyWhileRunning := by
  unfold Obligations.StepIsEnabledExactlyWhileRunning
  refine fun s => ⟨fun r h => step_of_halted h, fun hrun hstd => ?_, step_of_blocked⟩
  cases hm : s.micro with
  | some m => exact ⟨_, step_of_busy hrun hm⟩
  | none =>
    rw [step_of_idle hrun hm fun hstrict => hstd hstrict hm]
    exact exec_isNext _ _

/-- Settles O47: the zero word decodes to a BR with no condition bit, which is never taken. -/
theorem zeroWordIsANoOp : Obligations.ZeroWordIsANoOp := by
  unfold Obligations.ZeroWordIsANoOp
  intro s hrun hidle htrace hpc hzero
  have hread : s.memRead s.pc = 0x0000#16 := (State.memRead_plain hpc).trans hzero
  have hbr : decode 0x0000#16 = .br false false false 0#9 := by decide
  rw [step_of_idle hrun hidle (fun _ => by rw [hread]; decide), hread, hbr,
    exec_br_not_taken _ (by simp [branchTaken]), State.fetched_eq, State.afterRead_plain hpc, hread,
    htrace]
  rfl

/-- Settles O48: the fetch reads the placed word, and the step runs what it decodes to. -/
theorem placedWordIsTheOneRun : Obligations.PlacedWordIsTheOneRun := by
  unfold Obligations.PlacedWordIsTheOneRun
  intro s w hstrict hdev
  have hplace : s.withFetchWord 16 w.toNat = s.placeWord w := by
    rw [State.withFetchWord, Nat.mod_eq_of_lt w.isLt, BitVec.ofNat_toNat, BitVec.setWidth_eq]
  have hread : (s.placeWord w).memRead (s.placeWord w).pc = w := s.memRead_placeWord w hdev
  rw [hplace]
  refine ⟨?_, by rw [State.fetched_ir, hread], State.fetched_pc _⟩
  rw [step_of_idle (s := s.placeWord w) rfl rfl
    (fun h => absurd (hstrict.symm.trans h) (by decide)), hread]

/-- Settles O59: the fetch overwrites `ir` and reads nothing of it. -/
theorem oldInstructionRegisterIsInvisible : Obligations.OldInstructionRegisterIsInvisible := by
  unfold Obligations.OldInstructionRegisterIsInvisible
  intro s w hrun hidle
  exact step_congr_of_fetched hrun hidle hrun hidle (s.fetched_of_ir w)

/-- Settles O60: the step commutes with taking the trace out. -/
theorem traceHasNoEffectOnSemantics : Obligations.TraceHasNoEffectOnSemantics := by
  unfold Obligations.TraceHasNoEffectOnSemantics
  intro s
  rw [step_untraced, untracedOutcome_idem]

end Sys2Proof.Machine
end

section
/-! PROOF. TRAP and its routines (44_trap.md R91 to R102): the words that decode to each, what a
routine's step answers, the held reads, the endless scans, and the obligations O27 to O33, O36 and
O37. -/

namespace Sys2Proof.Machine

/-! ## The routine of each row -/

theorem exec_getc (s : State) : exec .getc s = .next (s.trapLink.runRoutine .gRead) := rfl

theorem exec_out (s : State) : exec .out s = .next (s.trapLink.runRoutine .oWrite) := rfl

theorem exec_puts (s : State) :
    exec .puts s = .next (s.trapLink.runRoutine (.pScan (s.trapLink.reg .r0))) := rfl

theorem exec_inChar (s : State) : exec .inChar s = .next (s.trapLink.runRoutine (.iPrompt 0)) := rfl

theorem exec_putsp (s : State) :
    exec .putsp s = .next (s.trapLink.runRoutine (.qScan (s.trapLink.reg .r0))) := rfl

theorem exec_halt (s : State) : exec .halt s = .next (s.trapLink.runRoutine (.hNotice 0)) := rfl

/-- Both spellings of a routine's row, its own and TRAP with its vector, execute as the row. -/
theorem exec_of_row {i j : Instr} {v : BitVec 8} (h : i = j ∨ i = .trap v) (hv : decodeTrap v = j)
    (s : State) : exec i s = exec j s := by
  rcases h with rfl | rfl
  · rfl
  · rw [execTrap_eq, hv]

/-! ## The link -/

/-- A state whose registers are those after the link, whatever else changed. -/
theorem State.linkedOnly_of_regs {s t : State} (h : t.regs = s.trapLink.regs) : s.linkedOnly t := by
  have hreg : ∀ r, t.reg r = s.trapLink.reg r := State.reg_congr h
  obtain ⟨hlink, hother⟩ := s.linkedOnly_trapLink
  exact ⟨(hreg _).trans hlink, fun r hr => (hreg r).trans (hother r hr)⟩

/-! ## The run of each routine -/

theorem State.runRoutine_out (s : State) : s.runRoutine .oWrite = { s with
    log := s.log ++ [.writeChar (lowByte (s.reg .r0)), .flush], micro := none } :=
  runTrap_out (s := s.goto (some .oWrite)) rfl (by simp only [trapFuel]; omega)

theorem State.runRoutine_puts {s : State} {a : Word} {ws : List Word} (h : s.stringAt a ws) :
    s.runRoutine (.pScan a) = { s with
      log := s.log ++ ws.map (fun w => .writeChar (lowByte w)) ++ [.flush], micro := none } := by
  have hlength := State.stringAt_length h
  exact runTrap_puts (s := s.goto (some (.pScan a))) rfl (State.stringAt_congr rfl h)
    (by simp only [trapFuel]; omega)

theorem State.runRoutine_putsp {s : State} {a : Word} {ws : List Word} (h : s.stringAt a ws) :
    s.runRoutine (.qScan a) = { s with
      log := s.log ++ ws.flatMap packedBytes ++ [.flush], micro := none } := by
  have hlength := State.stringAt_length h
  exact runTrap_putsp (s := s.goto (some (.qScan a))) rfl (State.stringAt_congr rfl h)
    (by simp only [trapFuel]; omega)

theorem packedBytes_eq (w : Word) : packedBytes w = .writeChar (w.setWidth 8) ::
    (if (w >>> 8).setWidth 8 = 0#8 then [] else [.writeChar ((w >>> 8).setWidth 8)]) := by
  rw [packedBytes, lowByte_eq, highByte_eq]

/-- A blocking read waits out the "not ready" marks before a character. -/
theorem nextKey_of_key {input : List HostInput} {n : Nat} {c : Byte} {rest : List HostInput}
    (h : input = List.replicate n .quiet ++ .key c :: rest) : nextKey input = some (c, rest) := by
  rw [h, nextKey_quiet, nextKey]

theorem nextKey_of_quiet (n : Nat) : nextKey (List.replicate n .quiet) = none := by
  have h := nextKey_quiet n []
  rwa [List.append_nil] at h

theorem State.runRoutine_getc {s : State} {c : Byte} {rest : List HostInput}
    (h : nextKey s.input = some (c, rest)) : s.runRoutine .gRead =
      State.charToR0 { s with
        micro := some .gRead, input := rest, log := s.log ++ [.readChar c] } c :=
  runTrap_getc (s := s.goto (some .gRead)) rfl h (by simp only [trapFuel]; omega)

/-- The state in which IN reads: after its prompt and a flush (R98). -/
def State.prompted (s : State) : State :=
  { s with log := s.log ++ s.cfg.inPrompt.map .writeChar ++ [.flush], micro := some .iRead }

/-- IN comes to its read with fuel left for the rest of the routine. -/
theorem State.runRoutine_prompt (s : State) :
    ∃ n, 4 ≤ n ∧ s.runRoutine (.iPrompt 0) = runTrap n s.prompted :=
  ⟨trapFuel s - (s.cfg.inPrompt.length + 2), by simp only [trapFuel]; omega,
    runTrap_prompt (s := s.goto (some (.iPrompt 0))) rfl
      (by simp only [trapFuel, State.goto_cfg]; omega)⟩

theorem State.runRoutine_inChar {s : State} {c : Byte} {rest : List HostInput}
    (h : nextKey s.input = some (c, rest)) : s.runRoutine (.iPrompt 0) =
      State.charToR0 { s with
        micro := some .iRead
        input := rest
        log := s.log ++ s.cfg.inPrompt.map .writeChar ++
          [.flush, .readChar c, .writeChar c, .flush] } c := by
  obtain ⟨n, hn, hprompt⟩ := s.runRoutine_prompt
  rw [hprompt, runTrap_in (s := s.prompted) rfl h hn]
  simp only [State.prompted, List.append_assoc, List.cons_append, List.nil_append]

/-! ## The held reads (R102) -/

theorem State.runRoutine_getc_held {s : State} (h : nextKey s.input = none) :
    s.runRoutine .gRead = s.goto (some .gRead) :=
  runTrap_held (s := s.goto (some .gRead)) (t := .gRead) rfl (by simp [holds, h])

theorem State.runRoutine_inChar_held {s : State} (h : nextKey s.input = none) :
    s.runRoutine (.iPrompt 0) = s.prompted := by
  obtain ⟨n, -, hprompt⟩ := s.runRoutine_prompt
  have hheld : holds .iRead s.prompted.input = true := by simp [holds, State.prompted, h]
  rw [hprompt, runTrap_held (s := s.prompted) rfl hheld]

/-- The character the host supplies to a blocked read is the one the read takes. -/
theorem nextKey_supply {s : State} {n : Nat} (h : s.input = List.replicate n .quiet) (c : Byte) :
    nextKey (s.supply c).input = some (c, []) := nextKey_of_key (n := n) (by rw [← h]; rfl)

/-- A machine blocked in GETC completes the routine once a character is supplied. -/
theorem step_supply_getc {s : State} {n : Nat} (hrun : s.status = .running)
    (hm : s.micro = some .gRead) (hinput : s.input = List.replicate n .quiet) (c : Byte) :
    step (s.supply c) =
      .next (State.charToR0 { s with input := [], log := s.log ++ [.readChar c] } c) := by
  rw [step_of_busy (s := s.supply c) hrun hm, State.resumeTrap_eq,
    runTrap_getc (s := s.supply c) hm (nextKey_supply hinput c) (by simp only [trapFuel]; omega)]
  rfl

/-- A machine blocked in IN completes the routine once a character is supplied. -/
theorem step_supply_inChar {s : State} {n : Nat} (hrun : s.status = .running)
    (hm : s.micro = some .iRead) (hinput : s.input = List.replicate n .quiet) (c : Byte) :
    step (s.supply c) = .next (State.charToR0 { s with
      input := [], log := s.log ++ [.readChar c, .writeChar c, .flush] } c) := by
  rw [step_of_busy (s := s.supply c) hrun hm, State.resumeTrap_eq,
    runTrap_in (s := s.supply c) hm (nextKey_supply hinput c) (by simp only [trapFuel]; omega)]
  rfl

/-! ## The endless scans (R97, R99) -/

/-- The two routines that scan memory. -/
theorem routine_of_isScan {m : TrapState} (h : isScan (some m)) :
    writesCond m.routine = false ∧ m.routine ≠ .halt := by
  cases m <;> simp only [isScan] at h <;> exact ⟨rfl, by simp [TrapState.routine]⟩

/-- A scan of a memory with no zero word goes on for any number of states, and changes its own state
and the console's output alone. -/
theorem runTrap_endless_scan (n : Nat) {s : State} (hscan : isScan s.micro) (hz : s.noZeroWord) :
    (runTrap n s).scanning ∧
      runTrap n s = { s with micro := (runTrap n s).micro, log := (runTrap n s).log } := by
  refine ⟨(isScan_iff _).mp (runTrap_isScan hscan hz), ?_⟩
  cases hm : s.micro with
  | none => rw [hm] at hscan; exact hscan.elim
  | some m =>
    rw [hm] at hscan
    obtain ⟨hwriter, hhalt⟩ := routine_of_isScan hscan
    have hin := State.inRoutine_of_micro hm rfl
    have hframe := runTrap_frame_of_writer n hin hwriter
    rwa [runTrap_status_of_routine n hin hhalt] at hframe

/-- The TRAP step of a scan that never ends: the link, and then the scan. -/
theorem runRoutine_endless_scan {s : State} {m : TrapState} (hscan : isScan (some m))
    (hz : s.noZeroWord) : (s.trapLink.runRoutine m).scanning ∧
      s.linkedOnly (s.trapLink.runRoutine m) ∧ s.trapLink.runRoutine m = { s with
        regs := (s.trapLink.runRoutine m).regs
        micro := (s.trapLink.runRoutine m).micro
        log := (s.trapLink.runRoutine m).log } := by
  obtain ⟨hgoes, hframe⟩ :=
    runTrap_endless_scan (trapFuel s.trapLink) (s := s.trapLink.goto (some m)) hscan hz
  rw [← State.runRoutine_eq] at hgoes hframe
  have hregs : (s.trapLink.runRoutine m).regs = s.trapLink.regs := by rw [hframe]; rfl
  refine ⟨hgoes, State.linkedOnly_of_regs hregs, ?_⟩
  rw [hregs]
  exact hframe

/-! ## The obligations -/

/-- Settles O27: `execTrap_eq` sends TRAP to the row of its vector, which answers a next state; PC
and memory are kept because TRAP is not listed as writing them. -/
theorem trapValidatesThenRunsTheRoutine : Obligations.TrapValidatesThenRunsTheRoutine := by
  unfold Obligations.TrapValidatesThenRunsTheRoutine
  refine ⟨fun w hw => decode_eq_decodeTrap hw, fun s v hv => ?_, fun s v hlo hhi => ?_,
    fun s v => ?_⟩
  · rw [execTrap_eq, decodeTrap_invalid ((validVector_eq_false_iff v).mpr hv), exec_trapInvalid]
    rfl
  · refine ⟨execTrap_eq v s, ?_⟩
    rcases validVector_cases v ((validVector_iff v).mpr ⟨hlo, hhi⟩) with
      rfl | rfl | rfl | rfl | rfl | rfl <;> decide
  · obtain ⟨t, ht⟩ := exec_isNext (.trap v) s
    exact ⟨t, ht, exec_pc ht rfl, fun a => exec_memPeek ht (by simp [storeAddress])
      (.inl (by simp [readAddresses]))⟩

/-- Settles O28: the run of GETC from its read, where a character is there. -/
theorem getcReadsACharacterIntoR0 : Obligations.GetcReadsACharacterIntoR0 := by
  unfold Obligations.GetcReadsACharacterIntoR0
  refine ⟨fun w hw => decode_eq_of_vector hw rfl, fun s i n c rest hi hinput => ?_⟩
  rw [exec_of_row hi rfl, exec_getc,
    State.runRoutine_getc (s := s.trapLink) (nextKey_of_key hinput)]
  exact ⟨_, rfl, s.charRead_charToR0 c _ _ _, rfl, rfl⟩

/-- Settles O29: the two states of OUT. -/
theorem outWritesTheLowByteOfR0 : Obligations.OutWritesTheLowByteOfR0 := by
  unfold Obligations.OutWritesTheLowByteOfR0
  refine ⟨fun w hw => decode_eq_of_vector hw rfl, fun s i hi => ?_⟩
  rw [exec_of_row hi rfl, exec_out, State.runRoutine_out, s.trapLink_reg_other (by decide),
    lowByte_eq]
  exact ⟨_, rfl, State.linkedOnly_of_regs rfl, rfl, rfl⟩

/-- Settles O30: the scan of PUTS over a string that ends; the link comes before it and leaves R0
and memory. -/
theorem putsWritesTheLowBytes : Obligations.PutsWritesTheLowBytes := by
  unfold Obligations.PutsWritesTheLowBytes
  refine ⟨fun w hw => decode_eq_of_vector hw rfl, fun s i ws hi hstring => ?_⟩
  have hlinked : s.trapLink.stringAt (s.reg .r0) ws := State.stringAt_congr rfl hstring
  rw [exec_of_row hi rfl, exec_puts, s.trapLink_reg_other (by decide),
    State.runRoutine_puts hlinked]
  simp only [lowByte_eq]
  exact ⟨_, rfl, State.linkedOnly_of_regs rfl, rfl, rfl⟩

/-- Settles O31: IN's prompt and flush, then its run from the read. -/
theorem inPromptsReadsAndEchoes : Obligations.InPromptsReadsAndEchoes := by
  unfold Obligations.InPromptsReadsAndEchoes
  refine ⟨fun w hw => decode_eq_of_vector hw rfl, fun s i n c rest hi hinput => ?_⟩
  rw [exec_of_row hi rfl, exec_inChar,
    State.runRoutine_inChar (s := s.trapLink) (nextKey_of_key hinput)]
  exact ⟨_, rfl, s.charRead_charToR0 c _ _ _, rfl, rfl⟩

/-- Settles O32: the scan of PUTSP over a string that ends. -/
theorem putspWritesPackedBytes : Obligations.PutspWritesPackedBytes := by
  unfold Obligations.PutspWritesPackedBytes
  refine ⟨fun w hw => decode_eq_of_vector hw rfl, fun s i ws hi hstring => ?_⟩
  have hlinked : s.trapLink.stringAt (s.reg .r0) ws := State.stringAt_congr rfl hstring
  rw [exec_of_row hi rfl, exec_putsp, s.trapLink_reg_other (by decide),
    State.runRoutine_putsp hlinked]
  refine ⟨_, rfl, State.linkedOnly_of_regs rfl, ?_, rfl⟩
  simp only [funext packedBytes_eq, State.trapLink_log]

/-- Settles O33: the notice, its flush and the halt are the whole run of HALT's routine. -/
theorem haltWritesTheNoticeAndEndsTheRun : Obligations.HaltWritesTheNoticeAndEndsTheRun := by
  unfold Obligations.HaltWritesTheNoticeAndEndsTheRun
  refine ⟨fun w hw => decode_eq_of_vector hw rfl, fun s i hi => ?_⟩
  rw [exec_of_row hi rfl, exec_halt, State.runRoutine_halt]
  exact ⟨_, rfl, State.linkedOnly_of_regs rfl, rfl, rfl, rfl⟩

/-- Settles O36: both reads hold in the state their run reaches, a held step answers its own state,
and the supplied character completes the run from the read. -/
theorem consoleReadsHoldUntilTheHostAnswers : Obligations.ConsoleReadsHoldUntilTheHostAnswers := by
  unfold Obligations.ConsoleReadsHoldUntilTheHostAnswers
  intro s n hrun hinput
  have hnone : nextKey s.trapLink.input = none := hinput ▸ nextKey_of_quiet n
  constructor
  · have hblocked : (s.trapLink.goto (some .gRead)).blocked := ⟨hrun, .inl rfl, hnone⟩
    rw [exec_getc, State.runRoutine_getc_held hnone]
    refine ⟨_, rfl, hblocked, State.linkedOnly_of_regs rfl, rfl, step_of_blocked hblocked,
      fun c => ?_⟩
    exact ⟨_, step_supply_getc (s := s.trapLink.goto (some .gRead)) hrun rfl hinput c,
      s.charRead_charToR0 c _ _ _, rfl, rfl⟩
  · have hblocked : s.trapLink.prompted.blocked := ⟨hrun, .inr rfl, hnone⟩
    rw [exec_inChar, State.runRoutine_inChar_held hnone]
    refine ⟨_, rfl, hblocked, State.linkedOnly_of_regs rfl, rfl, rfl, step_of_blocked hblocked,
      fun c => ?_⟩
    exact ⟨_, step_supply_inChar (s := s.trapLink.prompted) hrun rfl hinput c,
      s.charRead_charToR0 c _ _ _, rfl, rfl⟩

/-- Settles O37: the endless scan of the TRAP step, after the link, and of every later step. -/
theorem scanWithoutAZeroWordNeverEnds : Obligations.ScanWithoutAZeroWordNeverEnds := by
  unfold Obligations.ScanWithoutAZeroWordNeverEnds
  constructor
  · intro s i hz hi
    rcases hi with rfl | rfl
    · exact ⟨_, exec_puts s, runRoutine_endless_scan trivial hz⟩
    · exact ⟨_, exec_putsp s, runRoutine_endless_scan trivial hz⟩
  · intro s hz hrun hscan
    have hscan := (isScan_iff _).mpr hscan
    cases hm : s.micro with
    | none => rw [hm] at hscan; exact hscan.elim
    | some m => exact ⟨_, step_of_busy hrun hm, runTrap_endless_scan _ hscan hz⟩

end Sys2Proof.Machine
end
